-- ==== Sys2Proof/Word.lean ====
section
/-! DEFINITION. The word types of the block (00_scope.md R8): a byte is an unsigned 8-bit value, `x` and `z` travel
as 32-bit patterns (R105), and the port words have the widths of 30_encoding.md R75. -/

namespace Sys2Proof

/-- An unsigned 8-bit value, 0 to 255 (R8). -/
abbrev Byte := BitVec 8

/-- A 32-bit binary32 pattern (R71, R105): the block never rounds or canonicalises it. -/
abbrev Word32 := BitVec 32

/-- An RX beat or a beat of a TX operand stream, `k l dddddddd` (R75). -/
abbrev Beat := BitVec 10

/-- A TX command word, `oo cccccccc` (R75). -/
abbrev CmdWord := BitVec 10

/-- A TX operand word, `X[31:0] Z[31:0] grip[7:0]` (R75). -/
abbrev OperandWord := BitVec 72

/-- A TX result word, `rr vvv ssssssss` (R75). -/
abbrev ResultWord := BitVec 13

/-- A TX byte beat, `l dddddddd` (R75). -/
abbrev TxBeat := BitVec 9

end Sys2Proof
end

