-- ==== Sys2Proof/Config.lean ====
section
/-! DEFINITION. The constants of the block (00_scope.md R6, R7): the fixed wire constants as definitions, and the
quantities an instance is built with as the record `Config`. No operation writes a `Config` (10_state.md R27); the
state of an instance carries its own (log 7), so that a statement about every state holds for every instance. -/

namespace Sys2Proof

/-- `HEADER`, "DX", 0x44 first on the wire (R6, R42). -/
def header : List Byte := [0x44, 0x58]

/-- `FOOTER`, "XD", 0x58 first on the wire (R6, R42). -/
def footer : List Byte := [0x58, 0x44]

/-- `MIN_FRAME` = 2+1+1+0+1+2, the bytes of a frame with an empty payload (R6). -/
def minFrame : Nat := 7

/-- `MAX_PAYLOAD`, the largest count a one-byte length field can state (R6). -/
def maxPayload : Nat := 255

/-- `MAX_FRAME` = 7 + 255 (R6). -/
def maxFrame : Nat := 262

/-- `POS_LEN` = 4+4+1, the payload bytes of the position command (R6). -/
def posLen : Nat := 9

/-- What an instance is built with. The first five are the configuration constants of R6; the last three are the
parameters of R7, where `none` is "unbounded", the value R7 gives the model. -/
structure Config where
  /-- `GARBAGE_THRESHOLD`: a header-less buffer longer than this is discarded. -/
  garbageThreshold : Nat
  /-- `MIN_X`, a binary32 pattern. -/
  minX : Word32
  /-- `MAX_X`, a binary32 pattern. -/
  maxX : Word32
  /-- `MIN_Z`, a binary32 pattern. -/
  minZ : Word32
  /-- `MAX_Z`, a binary32 pattern. -/
  maxZ : Word32
  /-- `MAX_CHUNK`: bytes in one FEED. -/
  maxChunk : Option Nat
  /-- `BUF_CAP`: bytes `BUF` can hold during a FEED. -/
  bufCap : Option Nat
  /-- `FQ_DEPTH`: frames `FQ` can hold. -/
  fqDepth : Option Nat
  deriving DecidableEq, Repr

/-- The built-in values: the defaults of R6 (0, 1000.0, 0, 500.0 as the patterns R71 gives) and the unbounded values
of R7. -/
def Config.builtIn : Config where
  garbageThreshold := 100
  minX := 0x00000000
  maxX := 0x447A0000
  minZ := 0x00000000
  maxZ := 0x43FA0000
  maxChunk := none
  bufCap := none
  fqDepth := none

end Sys2Proof
end

