-- ==== Sys2Proof/Syntax.lean ====
section
/-! DEFINITION. The instructions of the block, one constructor for each row of spec/opcode_table.json, the Frame
object they carry (10_state.md R30), and the ports at which their words arrive (20_memory.md R40, 30_encoding.md R75). -/

namespace Sys2Proof

/-- The Frame object of R30: header, checksum byte and footer are not part of it. -/
structure Frame where
  cmd : Byte
  length : Byte
  payload : List Byte
  deriving DecidableEq, Repr

/-- The operations of 00_scope.md R3, and the two wire formats of R76. -/
inductive Instr where
  /-- FRAME (R60): one frame-shaped byte string arriving on the link, `44 58 cmd length payload checksum footer0
  footer1`; the length byte is the payload's. Checksum and footer are as received: the decoder, not the row's match,
  tests them (R137, R138; log 4). -/
  | frame (cmd : Byte) (payload : List Byte) (checksum footer0 footer1 : Byte)
  /-- FRAME.POS (R70): a 16-byte position frame arriving on the link; its footer is the footer marker. -/
  | framePos (cmd : Byte) (x z : Word32) (grip checksum : Byte)
  /-- FEED (R130): one chunk of the RX channel. -/
  | feed (chunk : List Byte)
  /-- ENCODE (R100). -/
  | encode (cmd : Byte) (payload : List Byte)
  /-- ENCODE_POSITION (R106). -/
  | encodePosition (cmd : Byte) (x z : Word32) (grip : Byte)
  /-- CSUM (R90). -/
  | csum (bytes : List Byte)
  /-- VALIDATE_POSITION (R120). -/
  | validatePosition (x z : Word32) (grip : Byte)
  /-- TRY_POP (R172). -/
  | tryPop
  /-- RESET (R210). -/
  | reset
  /-- PUSH (R171). -/
  | push (f : Frame)
  /-- PACK_POSITION (R104). -/
  | packPosition (x z : Word32) (grip : Byte)
  /-- UNPACK_POSITION (R175). -/
  | unpackPosition (f : Frame)
  deriving DecidableEq, Repr

/-- The places where an operation can be asked for. `link` is the link's `read()` side (R178), where rows of format
WIRE arrive; `rx`, `tx`, `pop`, `reset` are the ports of R75; `push` is the RX agent's end of the FRAME channel, where
it takes a frame of a FEED's result into the queue (R40, R174); `direct` stands for the two INTERNAL rows of R76 that
are functions, which have no port word (log 6). -/
inductive Port where
  | link | rx | tx | pop | reset | push | direct
  deriving DecidableEq, Repr

/-- A request for a function of format INTERNAL: its operands, no word (R76). -/
inductive Direct where
  | packPosition (x z : Word32) (grip : Byte)
  | unpackPosition (f : Frame)
  deriving DecidableEq, Repr

/-- What has been offered at the ports and not yet taken, oldest first, and the order in which the ports are served
(log 2). Not the block's state: the block's side of every channel is empty between operations (R20, R28). All but
`frames` is offered from outside; `frames` holds what FEED emitted until PUSH takes it. -/
structure Ports where
  /-- Whose turn it is: the interleaving of the agents (R52, R194), as data. -/
  turns : List Port
  /-- Results of the link's `read()` (R178). -/
  link : List (List Byte)
  /-- RX beats (R75). -/
  rxBeats : List Beat
  /-- TX command words (R75). -/
  txCmd : List CmdWord
  /-- TX operand stream beats, for ENCODE and CSUM (R75). -/
  txStream : List Beat
  /-- TX operand words, for ENCODE_POSITION and VALIDATE_POSITION (R75). -/
  txOperand : List OperandWord
  /-- POP strobes (R75). -/
  popStrobe : List (BitVec 1)
  /-- RESET inputs (R75). -/
  resetInput : List (BitVec 1)
  /-- The FRAME channel between FEED and PUSH (R40): the frames FEED emitted and the RX agent has not yet pushed
  (R174; log 14). -/
  frames : List Frame
  /-- Requests for the INTERNAL functions (R76). -/
  direct : List Direct
  deriving DecidableEq, Repr

/-- Nothing offered anywhere. -/
def Ports.empty : Ports := ⟨[], [], [], [], [], [], [], [], [], []⟩

/-- `words` offered in front of what is pending, port by port. -/
def Ports.offer (words pending : Ports) : Ports where
  turns := words.turns ++ pending.turns
  link := words.link ++ pending.link
  rxBeats := words.rxBeats ++ pending.rxBeats
  txCmd := words.txCmd ++ pending.txCmd
  txStream := words.txStream ++ pending.txStream
  txOperand := words.txOperand ++ pending.txOperand
  popStrobe := words.popStrobe ++ pending.popStrobe
  resetInput := words.resetInput ++ pending.resetInput
  frames := words.frames ++ pending.frames
  direct := words.direct ++ pending.direct

/-- Why no instruction can be read at a port. -/
inductive Reject where
  /-- Nothing is offered at the port: nothing to do. -/
  | nothingOffered
  /-- A chunk or operand stream whose closing beat (`l = 1`) has not arrived (R75). -/
  | streamOpen
  /-- A TX command word whose 72-bit operand word has not arrived (R75). -/
  | operandMissing
  /-- A strobe offered as 0: it asks for nothing (R75, "1 = perform"). -/
  | strobeLow
  /-- A record whose `length` is not the length of its payload, offered as a Frame object (R30, log 6). -/
  | notAFrameObject
  deriving DecidableEq, Repr

end Sys2Proof
end

