-- ==== Sys2Proof/WellFormed.lean ====
section
/-! DEFINITION. Which instruction terms the spec's operand types admit. -/

namespace Sys2Proof

/-- R30: `len(payload) = length`. -/
def Frame.wf (f : Frame) : Bool := f.payload.length == f.length.toNat

/-- The bytes of a FRAME row that are also a FRAME.POS row: length byte 9 and the footer marker in place (R70). Such
bytes are written as `framePos`, the more specific row (log 20). -/
def isPositionShape (payload : List Byte) (footer0 footer1 : Byte) : Bool :=
  payload.length == posLen && [footer0, footer1] == footer

/-- Well-formed instructions. FRAME: the payload fits the length byte (R60, R64) and the bytes are not a position
frame's. PUSH and UNPACK_POSITION take Frame objects (R30). Everything else admits every operand: ENCODE takes a
payload of any finite length (R100), FEED and CSUM any finite byte list (R130, R90). -/
def Instr.wf : Instr → Bool
  | .frame _ payload _ footer0 footer1 =>
      decide (payload.length ≤ maxPayload) && !isPositionShape payload footer0 footer1
  | .framePos _ _ _ _ _ => true
  | .feed _ => true
  | .encode _ _ => true
  | .encodePosition _ _ _ _ => true
  | .csum _ => true
  | .validatePosition _ _ _ => true
  | .tryPop => true
  | .reset => true
  | .push f => f.wf
  | .packPosition _ _ _ => true
  | .unpackPosition f => f.wf

end Sys2Proof
end

