-- ==== Sys2Proof/Decode.lean ====
section
/-! DEFINITION. Reading one instruction from the words offered at a port, and the encoder (30_encoding.md R75, R76,
R60, R70). Decoding is total: it answers an instruction and the words that remain, or a `Reject` by name. -/

namespace Sys2Proof

/-! ## Byte order and port-word fields -/

/-- `le32(w)`, least significant byte first (R9, R43). -/
def le32 (w : Word32) : List Byte :=
  [w.extractLsb' 0 8, w.extractLsb' 8 8, w.extractLsb' 16 8, w.extractLsb' 24 8]

/-- `unle32`, the inverse of `le32`: `b0 + 256*b1 + 65536*b2 + 16777216*b3` (R9). -/
def unle32 (b0 b1 b2 b3 : Byte) : Word32 :=
  BitVec.ofNat 32 (b0.toNat + 256 * b1.toNat + 65536 * b2.toNat + 16777216 * b3.toNat)

/-- A beat `k l dddddddd`, most significant bit first (R75). -/
def mkBeat (k l : Bool) (d : Byte) : Beat := BitVec.ofBool k ++ (BitVec.ofBool l ++ d)

/-- `k`: `d` is the next byte (R75). -/
def Beat.hasByte (b : Beat) : Bool := b.getLsbD 9

/-- `l`: the stream ends with this beat (R75). -/
def Beat.last (b : Beat) : Bool := b.getLsbD 8

/-- `d` (R75). -/
def Beat.byte (b : Beat) : Byte := b.extractLsb' 0 8

/-- The byte a beat carries, if any. -/
def Beat.bytes (b : Beat) : List Byte := if Beat.hasByte b then [Beat.byte b] else []

/-- One stream off the front of the beats: its bytes and the beats after its closing beat; `none` while no beat with
`l = 1` has arrived. A beat `k = 0, l = 0` has no effect (R75). -/
def decodeStream : List Beat → Option (List Byte × List Beat)
  | [] => none
  | b :: bs =>
      if Beat.last b then some (Beat.bytes b, bs)
      else (decodeStream bs).map fun r => (Beat.bytes b ++ r.1, r.2)

/-- The beats of a byte list: one a byte, `l = 1` on the last; the empty list is the single beat `k=0, l=1` (R75). -/
def encodeStream : List Byte → List Beat
  | [] => [mkBeat false true 0]
  | [d] => [mkBeat true true d]
  | d :: d' :: ds => mkBeat true false d :: encodeStream (d' :: ds)

/-- A TX command word `oo cccccccc` (R75). -/
def mkCmd (select : BitVec 2) (cmd : Byte) : CmdWord := select ++ cmd

/-- `oo`: 00 ENCODE, 01 ENCODE_POSITION, 10 CSUM, 11 VALIDATE_POSITION (R75). -/
def CmdWord.select (w : CmdWord) : BitVec 2 := w.extractLsb' 8 2

/-- `cccccccc` (R75). -/
def CmdWord.cmd (w : CmdWord) : Byte := w.extractLsb' 0 8

/-- The 72-bit operand word: X in bits 71 to 40, Z in bits 39 to 8, grip in bits 7 to 0 (R75). -/
def mkOperand (x z : Word32) (grip : Byte) : OperandWord := x ++ (z ++ grip)

/-- `X[31:0]` (R75). -/
def OperandWord.x (w : OperandWord) : Word32 := w.extractLsb' 40 32

/-- `Z[31:0]` (R75). -/
def OperandWord.z (w : OperandWord) : Word32 := w.extractLsb' 8 32

/-- `grip[7:0]` (R75). -/
def OperandWord.grip (w : OperandWord) : Byte := w.extractLsb' 0 8

/-! ## Frames on the wire -/

/-- The bytes of a FRAME row in wire order (R60, R42): header, cmd, length, payload, checksum, two footer bytes. The
length byte is the number of payload bytes (R64). -/
def wireBytes (cmd : Byte) (payload : List Byte) (checksum footer0 footer1 : Byte) : List Byte :=
  header ++ [cmd, BitVec.ofNat 8 payload.length] ++ payload ++ [checksum, footer0, footer1]

/-- The position payload: `x` and `z` little-endian, then `grip` (R70, R104). -/
def positionPayload (x z : Word32) (grip : Byte) : List Byte := le32 x ++ le32 z ++ [grip]

/-- The 16 bytes of a FRAME.POS row (R70). -/
def wirePosBytes (cmd : Byte) (x z : Word32) (grip checksum : Byte) : List Byte :=
  header ++ [cmd, BitVec.ofNat 8 posLen] ++ positionPayload x z grip ++ [checksum] ++ footer

/-- The fields of a position payload (R70, R175): `none` when it is not nine bytes. -/
def positionFields : List Byte → Option (Word32 × Word32 × Byte)
  | [x0, x1, x2, x3, z0, z1, z2, z3, grip] => some (unle32 x0 x1 x2 x3, unle32 z0 z1 z2 z3, grip)
  | _ => none

/-- A frame-shaped byte string read as its row: FRAME.POS where the bytes have that row's fixed bits, else FRAME
(log 20). -/
def classify (cmd : Byte) (payload : List Byte) (checksum footer0 footer1 : Byte) : Instr :=
  match positionFields payload with
  | some (x, z, grip) =>
      if [footer0, footer1] = footer then .framePos cmd x z grip checksum
      else .frame cmd payload checksum footer0 footer1
  | none => .frame cmd payload checksum footer0 footer1

/-- What one link `read()` delivers (R178). Bytes of the shape of R60 (header marker, then exactly as many bytes as
the length byte states and three more) are a WIRE row; any other bytes are an ordinary chunk, FEED (log 4). DESIGN
CHOICE: an empty read is FEED of the empty chunk; R178 also allows no FEED at all, which leaves the same BUF (R147) and
gives no FEED status (log 22). -/
def decodeRead (bytes : List Byte) : Instr :=
  match bytes with
  | h0 :: h1 :: cmd :: len :: rest =>
      if [h0, h1] = header ∧ rest.length = len.toNat + 3 then
        match rest.drop len.toNat with
        | [checksum, footer0, footer1] => classify cmd (rest.take len.toNat) checksum footer0 footer1
        | _ => .feed bytes
      else .feed bytes
  | _ => .feed bytes

/-! ## One instruction from a port -/

/-- The next FEED of the RX channel: beats up to the closing one (R75, R130). -/
def decodeRx (q : Ports) : Except Reject (Instr × Ports) :=
  match q.rxBeats with
  | [] => .error .nothingOffered
  | b :: bs =>
      match decodeStream (b :: bs) with
      | some (chunk, rest) => .ok (.feed chunk, { q with rxBeats := rest })
      | none => .error .streamOpen

/-- The operand stream of a TX command (R75). -/
def takeStream (q : Ports) (f : List Byte → Instr) : Except Reject (Instr × Ports) :=
  match decodeStream q.txStream with
  | some (bytes, rest) => .ok (f bytes, { q with txStream := rest })
  | none => .error .streamOpen

/-- The operand word of a TX command (R75). -/
def takeOperand (q : Ports) (f : OperandWord → Instr) : Except Reject (Instr × Ports) :=
  match q.txOperand with
  | w :: ws => .ok (f w, { q with txOperand := ws })
  | [] => .error .operandMissing

/-- The next operation of the TX command channel (R75). CSUM and VALIDATE_POSITION ignore the `cmd` bits. -/
def decodeTx (q : Ports) : Except Reject (Instr × Ports) :=
  match q.txCmd with
  | [] => .error .nothingOffered
  | w :: ws =>
      let q' := { q with txCmd := ws }
      if CmdWord.select w = 0 then takeStream q' (.encode (CmdWord.cmd w))
      else if CmdWord.select w = 1 then
        takeOperand q' fun o =>
          .encodePosition (CmdWord.cmd w) (OperandWord.x o) (OperandWord.z o) (OperandWord.grip o)
      else if CmdWord.select w = 2 then takeStream q' .csum
      else takeOperand q' fun o => .validatePosition (OperandWord.x o) (OperandWord.z o) (OperandWord.grip o)

/-- The function a request of format INTERNAL asks for (R76). Only Frame objects (R30) can be unpacked. -/
def decodeDirect : Direct → Except Reject Instr
  | .packPosition x z grip => .ok (.packPosition x z grip)
  | .unpackPosition f => if f.wf then .ok (.unpackPosition f) else .error .notAFrameObject

/-- The next PUSH (R174): its operand is the oldest frame FEED emitted that has not been pushed, and nothing else; so
each is pushed once, in the order of emission. Only Frame objects (R30) can be pushed. -/
def decodePush (q : Ports) : Except Reject (Instr × Ports) :=
  match q.frames with
  | [] => .error .nothingOffered
  | f :: rest => if f.wf then .ok (.push f, { q with frames := rest }) else .error .notAFrameObject

/-- The next instruction at port `p`, and the words that remain (`turns` is not looked at). -/
def decode (p : Port) (q : Ports) : Except Reject (Instr × Ports) :=
  match p with
  | .link =>
      match q.link with
      | [] => .error .nothingOffered
      | bytes :: rest => .ok (decodeRead bytes, { q with link := rest })
  | .rx => decodeRx q
  | .tx => decodeTx q
  | .pop =>
      match q.popStrobe with
      | [] => .error .nothingOffered
      | b :: rest => if b = 1 then .ok (.tryPop, { q with popStrobe := rest }) else .error .strobeLow
  | .reset =>
      match q.resetInput with
      | [] => .error .nothingOffered
      | b :: rest => if b = 1 then .ok (.reset, { q with resetInput := rest }) else .error .strobeLow
  | .push => decodePush q
  | .direct =>
      match q.direct with
      | [] => .error .nothingOffered
      | d :: rest =>
          match decodeDirect d with
          | .ok i => .ok (i, { q with direct := rest })
          | .error r => .error r

/-- The ports where the RX agent brings bytes to FEED (R11, R178). -/
def Port.bringsBytes : Port → Bool
  | .link => true
  | .rx => true
  | .tx => false
  | .pop => false
  | .reset => false
  | .push => false
  | .direct => false

/-- The port served next, and what is pending then; `none` when there is nothing to do. The RX agent pushes the frames
of a FEED before it performs another (R174; 92_eei_decisions.md D22), and pushes them also when no turn is left: until
then its turn at a port that brings bytes stands (log 14). Every other turn is taken as it comes (log 2). -/
def nextPort (q : Ports) : Option (Port × Ports) :=
  match q.turns with
  | [] => if q.frames.isEmpty then none else some (.push, q)
  | p :: ps =>
      if p.bringsBytes && !q.frames.isEmpty then some (.push, q) else some (p, { q with turns := ps })

/-- The words at port `p` after a turn in which no instruction could be read: a strobe of 0 is gone, and words that
wait for more words stay (log 10). -/
def afterReject (r : Reject) (p : Port) (q : Ports) : Ports :=
  match r, p with
  | .strobeLow, .pop => { q with popStrobe := q.popStrobe.drop 1 }
  | .strobeLow, .reset => { q with resetInput := q.resetInput.drop 1 }
  | _, _ => q

/-! ## The encoder -/

/-- The port of an instruction. -/
def portOf : Instr → Port
  | .frame _ _ _ _ _ => .link
  | .framePos _ _ _ _ _ => .link
  | .feed _ => .rx
  | .encode _ _ => .tx
  | .encodePosition _ _ _ _ => .tx
  | .csum _ => .tx
  | .validatePosition _ _ _ => .tx
  | .tryPop => .pop
  | .reset => .reset
  | .push _ => .push
  | .packPosition _ _ _ => .direct
  | .unpackPosition _ => .direct

/-- The words of an instruction on its ports, without a turn. Ignored bits are written 0 (log 13). -/
def wordsOf : Instr → Ports
  | .frame cmd payload checksum footer0 footer1 =>
      { Ports.empty with link := [wireBytes cmd payload checksum footer0 footer1] }
  | .framePos cmd x z grip checksum => { Ports.empty with link := [wirePosBytes cmd x z grip checksum] }
  | .feed chunk => { Ports.empty with rxBeats := encodeStream chunk }
  | .encode cmd payload => { Ports.empty with txCmd := [mkCmd 0 cmd], txStream := encodeStream payload }
  | .encodePosition cmd x z grip => { Ports.empty with txCmd := [mkCmd 1 cmd], txOperand := [mkOperand x z grip] }
  | .csum bytes => { Ports.empty with txCmd := [mkCmd 2 0], txStream := encodeStream bytes }
  | .validatePosition x z grip => { Ports.empty with txCmd := [mkCmd 3 0], txOperand := [mkOperand x z grip] }
  | .tryPop => { Ports.empty with popStrobe := [1] }
  | .reset => { Ports.empty with resetInput := [1] }
  | .push f => { Ports.empty with frames := [f] }
  | .packPosition x z grip => { Ports.empty with direct := [.packPosition x z grip] }
  | .unpackPosition f => { Ports.empty with direct := [.unpackPosition f] }

/-- The words of an instruction, with the one turn that has them taken. -/
def encode (i : Instr) : Ports := { wordsOf i with turns := [portOf i] }

/-! ## Words as spec/opcode_table.json numbers them (log 5) -/

/-- The `n` bytes of a number, most significant first: the table's WIRE rows write the first byte on the wire as the
most significant (R76). -/
def bigEndianBytes : Nat → Nat → List Byte
  | 0, _ => []
  | n + 1, w => BitVec.ofNat 8 (w / 256 ^ n) :: bigEndianBytes n w

/-- The bytes of a WIRE row's number, and zeros up to the length its length byte states (7 + L). -/
def wireOfNumber (nbits w : Nat) : List Byte :=
  let bytes := bigEndianBytes (nbits / 8) w
  bytes ++ List.replicate (minFrame + (bytes.getD 3 0).toNat - bytes.length) 0

/-- A TX command word with operands of zeros: a stream of no byte, or an operand word of zeros. -/
def txOfNumber (w : Nat) : Ports :=
  let c : CmdWord := BitVec.ofNat 10 w
  if CmdWord.select c = 0 ∨ CmdWord.select c = 2 then
    { Ports.empty with turns := [.tx], txCmd := [c], txStream := [mkBeat false true 0] }
  else { Ports.empty with turns := [.tx], txCmd := [c], txOperand := [0] }

/-- The words, and the turn, of a number of `nbits` bits as the table numbers it. The table's rows of 10 bits share
their words (an RX beat and a TX command word differ by their port only), as do the two strobes and the three INTERNAL
rows: a 10-bit number is taken at the TX command port, a strobe at the POP port, no bits at all as PUSH of the empty
frame of command 0 (log 5). -/
def tableWords (nbits w : Nat) : Ports :=
  if nbits = 0 then { Ports.empty with turns := [.push], frames := [⟨0, 0, []⟩] }
  else if nbits ≤ 8 then { Ports.empty with turns := [.pop], popStrobe := [BitVec.ofNat 1 w] }
  else if nbits ≤ 16 ∧ w < 1024 then txOfNumber w
  else { Ports.empty with turns := [.link], link := [wireOfNumber nbits w] }

/-- The instruction the decoder reads from a number of the opcode table. -/
def decodeTableWord (nbits w : Nat) : Option Instr :=
  let q := tableWords nbits w
  match q.turns with
  | [] => none
  | p :: _ =>
      match decode p q with
      | .ok (i, _) => some i
      | .error _ => none

end Sys2Proof
end

