-- ==== Sys2Proof/Machine/State.lean ====
section
/-! DEFINITION. The state of one instance of the block: `BUF` and `FQ` (10_state.md R20), the constants it was built
with (R27), and, as the model's own fields, what stands at its input ports and what has left on its channels
(20_memory.md R40). Also the reasons a step can stop. -/

namespace Sys2Proof.Machine

/-- Faults of the block: there are none. "No behaviour of this block is treated as `fault` or `stuck`"
(93_implementation_defined.md); R10, R141, R187 (log 12). Nobody raises one. -/
inductive Fault where
  deriving DecidableEq, Repr

/-- Why the model gives a run no meaning. -/
inductive Refusal where
  /-- An instruction without a meaning. Raised by no arm of `exec` in this model. Safe. -/
  | notModelled (mnemonic : String)
  /-- A chunk over a finite `MAX_CHUNK`, or one that does not fit a finite `BUF_CAP`. Raised by FEED, FRAME and
  FRAME.POS. "refuse" (U7, U12); cannot happen at the built-in values. Safe: it stops. -/
  | chunkOverCapacity
  /-- PUSH on a finite queue that is full. "refuse" (U8); cannot happen at the built-in value. Safe: it stops. -/
  | frameQueueFull
  /-- A record that is no Frame object (R30) was at PUSH or UNPACK_POSITION. Raised by the step, before any
  instruction. Safe: it stops (log 6). -/
  | notAFrameObject
  deriving DecidableEq, Repr

/-- The kinds of diagnostic event (R31). -/
inductive DiagKind where
  | garbageTrim | garbageFlush | corruptFooter | corruptChecksum
  deriving DecidableEq, Repr

/-- A diagnostic event: its kind and the bytes it concerns (R31). -/
structure Diag where
  kind : DiagKind
  bytes : List Byte
  deriving DecidableEq, Repr

/-- How a FEED ended (R32). -/
inductive StopReason where
  | idleNoHeader | flushed | partialMin | partialLen
  deriving DecidableEq, Repr

/-- The fields a violation list names (R122). -/
inductive PosField where
  | x | z | grip
  deriving DecidableEq, Repr

/-- The result of one operation of the TX command channel. -/
inductive TxResult where
  /-- ENCODE or ENCODE_POSITION succeeded; the frame went to the TX byte channel (R100, R106). -/
  | encoded
  /-- CSUM's value (R90). -/
  | sum (value : Byte)
  /-- VALIDATE_POSITION's list (R120): a result, not a failure. -/
  | violations (fields : List PosField)
  /-- `InvalidPayload`, with the offending length (R101, R186). -/
  | invalidPayload (length : Nat)
  /-- `OutOfRange`, with every violated field (R106, R185). -/
  | outOfRange (fields : List PosField)
  deriving DecidableEq, Repr

/-- What UNPACK_POSITION returns for a position frame (R175). -/
structure Position where
  x : Word32
  z : Word32
  grip : Byte
  deriving DecidableEq, Repr

/-- What the operations have answered on each channel since the start, oldest first (R40, R75; log 3). -/
structure Outputs where
  /-- The Frame objects FEED emitted (R139), all of them; those not yet pushed also stand in `ports.frames` (R174). -/
  frames : List Frame
  /-- DIAG channel (R31). Kept apart from `frames`: no order between the two is specified (R142). -/
  diags : List Diag
  /-- FEED status, one stop reason a FEED (R32). -/
  status : List StopReason
  /-- TX results, one an operation of the TX command channel (R75). -/
  txResults : List TxResult
  /-- TX byte channel (R75, R108). -/
  txBytes : List TxBeat
  /-- Results of TRY_POP, `none` for `NONE` (R172). -/
  pops : List (Option Frame)
  /-- Results of PACK_POSITION (R104). -/
  packed : List (List Byte)
  /-- Results of UNPACK_POSITION, `none` for `NONE` (R175). -/
  unpacked : List (Option Position)
  deriving DecidableEq, Repr

/-- Nothing has left the block. -/
def Outputs.empty : Outputs := ⟨[], [], [], [], [], [], [], []⟩

/-- One instance of the block and its boundary. -/
structure State where
  /-- `BUF`, the decoder buffer; offset 0 is the oldest unconsumed byte (R25). -/
  buf : List Byte
  /-- `FQ`, the frame queue, oldest first (R170). -/
  fq : List Frame
  /-- The constants the instance was built with (R6, R7, R27); no operation writes them. -/
  cfg : Config
  /-- Model's own: what is offered at the input ports (log 2), and the FRAME channel up to PUSH (log 14). -/
  ports : Ports
  /-- Model's own: what has left on the output channels (log 3). -/
  out : Outputs
  deriving DecidableEq, Repr

/-- The machine right after reset: `BUF = []`, `FQ = []`, no operation in progress, the constants at their built-in
values (R34, R212); nothing offered and nothing emitted yet (log 18). -/
def State.reset : State where
  buf := []
  fq := []
  cfg := Config.builtIn
  ports := Ports.empty
  out := Outputs.empty

end Sys2Proof.Machine
end

