-- ==== Sys2Proof/Machine/Flags.lean ====
section
/-! DEFINITION. The block has no flags (10_state.md R23); what a processor would put in flags is a code in an
operation's own result. These are the codes, and the port words that carry them (60_exceptions.md R181, 10_state.md
R31, R32, 42_validator.md R122, 30_encoding.md R75). -/

namespace Sys2Proof.Machine

/-- The violation mask `vvv`: bit 0 for `x`, bit 1 for `z`, bit 2 for `grip` (R122). -/
def violationMask (fields : List PosField) : BitVec 3 :=
  BitVec.ofBool (fields.contains .grip) ++ (BitVec.ofBool (fields.contains .z) ++ BitVec.ofBool (fields.contains .x))

/-- `rr`: 00 OK, 01 INVALID_PAYLOAD, 10 OUT_OF_RANGE (R181). VALIDATE_POSITION never fails: its `rr` is 00. -/
def TxResult.code : TxResult → BitVec 2
  | .encoded => 0
  | .sum _ => 0
  | .violations _ => 0
  | .invalidPayload _ => 1
  | .outOfRange _ => 2

/-- `vvv` of the result word (R75, R122). -/
def TxResult.mask : TxResult → BitVec 3
  | .encoded => 0
  | .sum _ => 0
  | .violations fields => violationMask fields
  | .invalidPayload _ => 0
  | .outOfRange fields => violationMask fields

/-- `s`: the CSUM value, zero for other operations (R75). -/
def TxResult.value : TxResult → Byte
  | .encoded => 0
  | .sum v => v
  | .violations _ => 0
  | .invalidPayload _ => 0
  | .outOfRange _ => 0

/-- The TX result word `rr vvv ssssssss` (R75). -/
def TxResult.word (r : TxResult) : ResultWord := r.code ++ (r.mask ++ r.value)

/-- DIAG kind codes 0 to 3 (R31). -/
def DiagKind.code : DiagKind → BitVec 2
  | .garbageTrim => 0
  | .garbageFlush => 1
  | .corruptFooter => 2
  | .corruptChecksum => 3

/-- FEED status codes 0 to 3 (R32). -/
def StopReason.code : StopReason → BitVec 2
  | .idleNoHeader => 0
  | .flushed => 1
  | .partialMin => 2
  | .partialLen => 3

/-- A TX byte beat `l dddddddd` (R75). -/
def mkTxBeat (last : Bool) (d : Byte) : TxBeat := BitVec.ofBool last ++ d

/-- A frame on the TX byte channel: its bytes in offset order, `l = 1` on the last one only (R75, R108). -/
def frameBeats : List Byte → List TxBeat
  | [] => []
  | [d] => [mkTxBeat true d]
  | d :: d' :: ds => mkTxBeat false d :: frameBeats (d' :: ds)

end Sys2Proof.Machine
end

