-- ==== Sys2Proof/Machine/Operands.lean ====
section
/-! DEFINITION. What the operations compute from their operands: the byte sum (40_checksum.md R90), the fields and the
validity of a frame-shaped byte string (20_memory.md R47, 30_encoding.md R62), and binary32 values and their order
(R71, R120). -/

namespace Sys2Proof.Machine

/-! ## Sums and frames -/

/-- `sum8(s) = (s[0] + ... ) mod 256`, and 0 for the empty sequence (R9, R90). -/
def sum8 (s : List Byte) : Byte := BitVec.ofNat 8 (s.map BitVec.toNat).sum

/-- `total_len = 7 + L` of a buffer or candidate, `L` the byte at offset 3; a number from 7 to 262, not reduced
modulo 256 (R61, R92, R135). -/
def totalLen (c : List Byte) : Nat := minFrame + (c.getD 3 0).toNat

/-- The bytes the checksum covers, offsets 2 to `total_len - 4` (R65, R91). -/
def summedRange (c : List Byte) : List Byte := (c.drop 2).take (c.length - 5)

/-- The transmitted checksum byte, offset `total_len - 3` (R47). -/
def checksumByte (c : List Byte) : Byte := c.getD (c.length - 3) 0

/-- The last two bytes, offsets `total_len - 2` and `total_len - 1` (R47). -/
def footerBytes (c : List Byte) : List Byte := c.drop (c.length - 2)

/-- `valid(c)` (R62). -/
def validFrame (c : List Byte) : Bool :=
  decide (minFrame ≤ c.length) && c.length == totalLen c && c.take 2 == header && footerBytes c == footer &&
    checksumByte c == sum8 (summedRange c)

/-- The Frame object of a candidate: `cmd = c[2]`, `length = c[3]`, `payload = c[4 : 4+L]` (R139). -/
def frameOf (c : List Byte) : Frame where
  cmd := c.getD 2 0
  length := c.getD 3 0
  payload := (c.drop 4).take (c.getD 3 0).toNat

/-- `HEADER ++ body ++ [sum8(body)] ++ FOOTER` with `body = [cmd, L] ++ payload` (R100). -/
def buildFrame (cmd : Byte) (payload : List Byte) : List Byte :=
  let body := [cmd, BitVec.ofNat 8 payload.length] ++ payload
  header ++ body ++ [sum8 body] ++ footer

/-! ## binary32 (R71, general knowledge: log 11) -/

/-- The value of a binary32 pattern. A finite value `v` is held exactly, as the integer `v * 2^149`: 2^-149 is the
smallest positive binary32 value and divides every other. `+0` and `-0` are both 0 (R9). -/
inductive F32 where
  | nan
  | negInf
  | posInf
  | finite (scaled : Int)
  deriving DecidableEq, Repr

/-- `f32val(w)` (R9, R71): sign bit 31, biased exponent bits 30 to 23 (bias 127), fraction bits 22 to 0. -/
def f32val (w : Word32) : F32 :=
  let negative := w.getLsbD 31
  let e := (w.extractLsb' 23 8).toNat
  let f := (w.extractLsb' 0 23).toNat
  if e = 255 then
    if f = 0 then (if negative then .negInf else .posInf) else .nan
  else
    let magnitude : Nat := if e = 0 then f else (2 ^ 23 + f) * 2 ^ (e - 1)
    .finite (if negative then -(magnitude : Int) else (magnitude : Int))

/-- `a <= b` as IEEE 754 defines it: false when either is NaN (R120). -/
def F32.le : F32 → F32 → Bool
  | .nan, _ => false
  | _, .nan => false
  | .negInf, _ => true
  | _, .posInf => true
  | .posInf, _ => false
  | _, .negInf => false
  | .finite a, .finite b => decide (a ≤ b)

/-- `lo <= v and v <= hi`, both ends inclusive, on patterns (R120, R121). -/
def inRange (lo v hi : Word32) : Bool := F32.le (f32val lo) (f32val v) && F32.le (f32val v) (f32val hi)

/-- VALIDATE_POSITION's list: all violated fields in the order `x`, `z`, `grip` (R120, R122). -/
def positionViolations (cfg : Config) (x z : Word32) (grip : Byte) : List PosField :=
  (if inRange cfg.minX x cfg.maxX then [] else [.x]) ++
    (if inRange cfg.minZ z cfg.maxZ then [] else [.z]) ++
    (if grip = 0 ∨ grip = 1 then [] else [.grip])

/-- The fields of a Frame object whose length is 9, in the layout of R70; `NONE` otherwise (R175). -/
def unpack (f : Frame) : Option Position :=
  if f.length.toNat = posLen then
    (positionFields f.payload).map fun p => ⟨p.1, p.2.1, p.2.2⟩
  else none

end Sys2Proof.Machine
end

