-- ==== Sys2Proof/Machine/Ops.lean ====
section
/-! DEFINITION. The named operations over the block's store, queue and channels: the access primitives of `BUF`
(00_scope.md R9, 20_memory.md R41), the queue (44_dispatcher.md R171, R172), the one way a result leaves on each
channel, and the one way an operation of the transmit path fails. There is no exception to take (60_exceptions.md
R191): a failure is a result, and it changes nothing else. -/

namespace Sys2Proof.Machine

/-! ## BUF (R9, R41) -/

/-- `BufAppend(s)`: `BUF <- BUF ++ s`. -/
def bufAppend (buf s : List Byte) : List Byte := buf ++ s

/-- `BufDrop(n)`: `BUF <- BUF[n : len(BUF)]`. -/
def bufDrop (buf : List Byte) (n : Nat) : List Byte := buf.drop n

/-- `MemRead(addr, n)`: `BUF[addr : addr+n]`. -/
def memRead (buf : List Byte) (addr n : Nat) : List Byte := (buf.drop addr).take n

/-- `find(s, m)`: the least offset at which `m` stands in `s`, or `NONE` (R9, R132). -/
def find (s m : List Byte) : Option Nat :=
  if s.take m.length = m then some 0
  else
    match s with
    | [] => none
    | _ :: t => (find t m).map (· + 1)

/-! ## FQ (R171, R172) -/

/-- `FQ <- FQ ++ [F]` (R171). -/
def State.enqueue (s : State) (f : Frame) : State := { s with fq := s.fq ++ [f] }

/-- `F <- FQ[0] ; FQ <- FQ[1 : len(FQ)]`, or `NONE` and no change on an empty queue (R172). -/
def State.dequeue (s : State) : Option Frame × State :=
  match s.fq with
  | [] => (none, s)
  | f :: rest => (some f, { s with fq := rest })

/-- Frames leave the decoder: they are on the FRAME channel, where PUSH takes them, and in the record of what FEED has
emitted (R139, R174). -/
def State.emit (s : State) (fs : List Frame) : State :=
  { s with
    ports := { s.ports with frames := s.ports.frames ++ fs }
    out := { s.out with frames := s.out.frames ++ fs } }

/-- Every frame FEED emitted and the RX agent has not pushed yet goes into `FQ`, in order (R174): what so many PUSHes
do where there is room for them. DESIGN CHOICE: it makes no check of `FQ_DEPTH`, so on a finite queue without that room
FQ ends longer than `FQ_DEPTH`, where the PUSHes themselves are refused (R173, U8). Only `withFetchWord`, which places
an instruction from outside, uses it; no step does (log 5). -/
def State.handOver (s : State) : State :=
  { s with fq := s.fq ++ s.ports.frames, ports := { s.ports with frames := [] } }

/-- `BUF <- [] ; FQ <- []`, and no hand-over left to do: frames that wait for their PUSH belong to the queue as much as
those in `FQ` (92_eei_decisions.md D22) and are discarded with them (R210, R212). -/
def State.restart (s : State) : State :=
  { s with buf := [], fq := [], ports := { s.ports with frames := [] } }

/-- Whether a number is within a limit of R7; `none` is unbounded. -/
def within (n : Nat) : Option Nat → Bool
  | none => true
  | some limit => decide (n ≤ limit)

/-! ## Results leaving on the channels (R40, R75) -/

/-- One result of the TX command channel. -/
def State.reply (s : State) (r : TxResult) : State :=
  { s with out := { s.out with txResults := s.out.txResults ++ [r] } }

/-- One frame to the TX byte channel, contiguous and in offset order (R108). -/
def State.transmit (s : State) (bytes : List Byte) : State :=
  { s with out := { s.out with txBytes := s.out.txBytes ++ frameBeats bytes } }

/-- `fail <Name>(info)`: the operation ends and returns the named failure; nothing is transmitted and no state changes
(R9, R102, R185, R186, R191). -/
def State.fail (s : State) (r : TxResult) : State := s.reply r

/-- A result of TRY_POP. -/
def State.answerPop (s : State) (r : Option Frame) : State :=
  { s with out := { s.out with pops := s.out.pops ++ [r] } }

/-- A result of PACK_POSITION. -/
def State.answerPack (s : State) (r : List Byte) : State :=
  { s with out := { s.out with packed := s.out.packed ++ [r] } }

/-- A result of UNPACK_POSITION. -/
def State.answerUnpack (s : State) (r : Option Position) : State :=
  { s with out := { s.out with unpacked := s.out.unpacked ++ [r] } }

/-! ## A turn without an instruction (log 10) -/

/-- No instruction could be read at the port whose turn it is: the block waits, its state unchanged; only a record
that is no Frame object has no meaning. -/
def noInstruction (r : Reject) (p : Port) (s : State) : Host.Outcome State Fault Refusal :=
  match r with
  | .notAFrameObject => .refused .notAFrameObject
  | .nothingOffered => .next { s with ports := afterReject r p s.ports }
  | .streamOpen => .next { s with ports := afterReject r p s.ports }
  | .operandMissing => .next { s with ports := afterReject r p s.ports }
  | .strobeLow => .next { s with ports := afterReject r p s.ports }

end Sys2Proof.Machine
end

