-- ==== Sys2Proof/Machine/Checksum.lean ====
section
/-! DEFINITION. The checksum calculator (40_checksum.md). -/

namespace Sys2Proof.Machine

/-- CSUM (R90): the low 8 bits of the sum. Reads and writes no state; no failure. -/
def execCsum (bytes : List Byte) (s : State) : Host.Outcome State Fault Refusal :=
  .next (s.reply (.sum (sum8 bytes)))

end Sys2Proof.Machine
end

