-- ==== Sys2Proof/Machine/Decoder.lean ====
section
/-! DEFINITION. The stream decoder (43_decoder.md): FEED, and the two WIRE rows, which are FEEDs of a frame's bytes. -/

namespace Sys2Proof.Machine

/-- What a FEED leaves and returns (R130): the buffer, and `(frames, diags, stop)`. -/
structure FeedResult where
  buf : List Byte
  frames : List Frame
  diags : List Diag
  stop : StopReason
  deriving DecidableEq, Repr

/-- What steps 6 and 7 say of a candidate. -/
inductive Verdict where
  | badFooter
  | badChecksum
  | good
  deriving DecidableEq, Repr

/-- Steps 6 and 7 (R137, R138): the footer first, and the checksum only when the footer matches (R190). -/
def judge (c : List Byte) : Verdict :=
  if footerBytes c ≠ footer then .badFooter
  else if sum8 (summedRange c) ≠ checksumByte c then .badChecksum
  else .good

/-- The outcome of step 1 when there is no header (R132): flush when the buffer is longer than the threshold. -/
def noHeader (threshold : Nat) (buf : List Byte) : FeedResult :=
  if threshold < buf.length then ⟨[], [], [⟨.garbageFlush, buf⟩], .flushed⟩ else ⟨buf, [], [], .idleNoHeader⟩

/-- The event of step 2 (R133): one GARBAGE_TRIM with the bytes before the header, none when there are none. -/
def trimEvents (buf : List Byte) (i : Nat) : List Diag :=
  if 0 < i then [⟨.garbageTrim, memRead buf 0 i⟩] else []

/-- What is reported and emitted for a candidate (R137, R138, R139), in front of what the rest of the FEED gives. -/
def settle (c : List Byte) (rest : FeedResult) : FeedResult :=
  match judge c with
  | .badFooter => { rest with diags := ⟨.corruptFooter, c⟩ :: rest.diags }
  | .badChecksum => { rest with diags := ⟨.corruptChecksum, c⟩ :: rest.diags }
  | .good => { rest with frames := frameOf c :: rest.frames }

/-- Steps 1 to 8 as a loop (R132 to R140). The first argument bounds the passes through step 5; `feed` gives it one
more than R144 says there can be, so that it never runs out (log 17). -/
def feedLoop (threshold : Nat) : Nat → List Byte → FeedResult
  | 0, buf => ⟨buf, [], [], .idleNoHeader⟩
  | n + 1, buf =>
      match find buf header with
      | none => noHeader threshold buf
      | some i =>
          let b := bufDrop buf i
          let r :=
            if b.length < minFrame then ⟨b, [], [], .partialMin⟩
            else if b.length < totalLen b then ⟨b, [], [], .partialLen⟩
            else settle (memRead b 0 (totalLen b)) (feedLoop threshold n (bufDrop b (totalLen b)))
          { r with diags := trimEvents buf i ++ r.diags }

/-- `FEED(chunk)` on a buffer (R130): step 0 appends the whole chunk (R131), then the loop. -/
def feed (threshold : Nat) (buf chunk : List Byte) : FeedResult :=
  let b := bufAppend buf chunk
  feedLoop threshold (b.length / minFrame + 1) b

/-- Whether the chunk is within MAX_CHUNK and fits BUF_CAP (R7, U7); always, at the built-in values. -/
def State.accepts (s : State) (chunk : List Byte) : Bool :=
  within chunk.length s.cfg.maxChunk && within (s.buf.length + chunk.length) s.cfg.bufCap

/-- The results of a FEED leave on their channels, and `BUF` is what it left (R130). -/
def State.commitFeed (s : State) (r : FeedResult) : State :=
  { s.emit r.frames with
    buf := r.buf
    out := { (s.emit r.frames).out with
      diags := s.out.diags ++ r.diags
      status := s.out.status ++ [r.stop] } }

/-- One FEED of a chunk in a state, shared by the three rows that are FEEDs. It reads and writes `BUF` and nothing
else of the block (R130); a chunk outside a finite instance's contract is refused (U7). -/
def feedState (chunk : List Byte) (s : State) : Host.Outcome State Fault Refusal :=
  if s.accepts chunk then .next (s.commitFeed (feed s.cfg.garbageThreshold s.buf chunk))
  else .refused .chunkOverCapacity

/-- FEED (R130). -/
def execFeed (chunk : List Byte) (s : State) : Host.Outcome State Fault Refusal := feedState chunk s

/-- FRAME (R60, R76): the bytes of a frame-shaped string arrive on the link as one chunk (R178; log 4). -/
def execFrame (cmd : Byte) (payload : List Byte) (checksum footer0 footer1 : Byte) (s : State) :
    Host.Outcome State Fault Refusal :=
  feedState (wireBytes cmd payload checksum footer0 footer1) s

/-- FRAME.POS (R70, R76): the 16 bytes of a position frame arrive on the link as one chunk (R178; log 4). -/
def execFramePos (cmd : Byte) (x z : Word32) (grip checksum : Byte) (s : State) : Host.Outcome State Fault Refusal :=
  feedState (wirePosBytes cmd x z grip checksum) s

end Sys2Proof.Machine
end

