-- ==== Sys2Proof/Machine/Dispatcher.lean ====
section
/-! DEFINITION. The frame dispatcher and the boundary operations (44_dispatcher.md). -/

namespace Sys2Proof.Machine

/-- PUSH (R171): `FQ <- FQ ++ [F]`; no failure, no wait. On a full finite queue the run has no meaning (U8). -/
def execPush (f : Frame) (s : State) : Host.Outcome State Fault Refusal :=
  if within (s.fq.length + 1) s.cfg.fqDepth then .next (s.enqueue f) else .refused .frameQueueFull

/-- TRY_POP (R172): the oldest frame, which leaves the queue, or `NONE`. -/
def execTryPop (s : State) : Host.Outcome State Fault Refusal :=
  .next (s.dequeue.2.answerPop s.dequeue.1)

/-- UNPACK_POSITION (R175): the fields of a frame of length 9, or `NONE`; no range check, `cmd` not examined. -/
def execUnpackPosition (f : Frame) (s : State) : Host.Outcome State Fault Refusal :=
  .next (s.answerUnpack (unpack f))

end Sys2Proof.Machine
end

