-- ==== Sys2Proof/Machine/Encoder.lean ====
section
/-! DEFINITION. The frame encoder and serializer (41_encoder.md). -/

namespace Sys2Proof.Machine

/-- `ENCODE(cmd, payload)` of R100, shared with ENCODE_POSITION: `InvalidPayload` when the payload has more than 255
bytes (R101), else the whole frame on the TX byte channel (R102, R108). -/
def encodeFrame (cmd : Byte) (payload : List Byte) (s : State) : State :=
  if maxPayload < payload.length then s.fail (.invalidPayload payload.length)
  else (s.transmit (buildFrame cmd payload)).reply .encoded

/-- ENCODE (R100). -/
def execEncode (cmd : Byte) (payload : List Byte) (s : State) : Host.Outcome State Fault Refusal :=
  .next (encodeFrame cmd payload s)

/-- ENCODE_POSITION (R106): `OutOfRange` with every violated field, tested first; else PACK_POSITION, then ENCODE. -/
def execEncodePosition (cmd : Byte) (x z : Word32) (grip : Byte) (s : State) : Host.Outcome State Fault Refusal :=
  match positionViolations s.cfg x z grip with
  | [] => .next (encodeFrame cmd (positionPayload x z grip) s)
  | v :: vs => .next (s.fail (.outOfRange (v :: vs)))

/-- PACK_POSITION (R104): `le32(X) ++ le32(Z) ++ [grip]`, bit for bit; it checks nothing. -/
def execPackPosition (x z : Word32) (grip : Byte) (s : State) : Host.Outcome State Fault Refusal :=
  .next (s.answerPack (positionPayload x z grip))

end Sys2Proof.Machine
end

