-- ==== Sys2Proof/Machine/Reset.lean ====
section
/-! DEFINITION. RESET (70_reset_and_hazards.md). -/

namespace Sys2Proof.Machine

/-- RESET (R210): `BUF` and `FQ` are emptied, with the frames on their way to `FQ`, without a diagnostic event. The
constants are not affected; what is still offered at the ports and what has already left are not the block's (log 9). -/
def execReset (s : State) : Host.Outcome State Fault Refusal := .next s.restart

end Sys2Proof.Machine
end

