-- ==== Sys2Proof/Machine/Validator.lean ====
section
/-! DEFINITION. The payload validator (42_validator.md). -/

namespace Sys2Proof.Machine

/-- VALIDATE_POSITION (R120): the list of violated fields, empty when valid. A violation is a result, not a failure. -/
def execValidatePosition (x z : Word32) (grip : Byte) (s : State) : Host.Outcome State Fault Refusal :=
  .next (s.reply (.violations (positionViolations s.cfg x z grip)))

end Sys2Proof.Machine
end

