-- ==== Sys2Proof/Machine/Dispatch.lean ====
section
/-! DEFINITION. Every instruction and its meaning. -/

namespace Sys2Proof.Machine

def exec (i : Instr) (s : State) : Host.Outcome State Fault Refusal :=
  match i with
  | .frame cmd payload checksum footer0 footer1 => Sys2Proof.Machine.execFrame cmd payload checksum footer0 footer1 s
  | .framePos cmd x z grip checksum => Sys2Proof.Machine.execFramePos cmd x z grip checksum s
  | .feed chunk => Sys2Proof.Machine.execFeed chunk s
  | .encode cmd payload => Sys2Proof.Machine.execEncode cmd payload s
  | .encodePosition cmd x z grip => Sys2Proof.Machine.execEncodePosition cmd x z grip s
  | .csum bytes => Sys2Proof.Machine.execCsum bytes s
  | .validatePosition x z grip => Sys2Proof.Machine.execValidatePosition x z grip s
  | .tryPop => Sys2Proof.Machine.execTryPop s
  | .reset => Sys2Proof.Machine.execReset s
  | .push f => Sys2Proof.Machine.execPush f s
  | .packPosition x z grip => Sys2Proof.Machine.execPackPosition x z grip s
  | .unpackPosition f => Sys2Proof.Machine.execUnpackPosition f s

end Sys2Proof.Machine
end

