-- ==== Sys2Proof/Machine/Step.lean ====
section
/-! DEFINITION. One step: the port whose turn it is is served. There is no program counter and no stored program
(10_state.md R22): an operation is an atomic transaction at a port (92_eei_decisions.md D2). -/

namespace Sys2Proof.Machine

/-- Serve the next port (`nextPort`): take one instruction's words off it and run the instruction. With no turn left
and no frame to push the block is idle and nothing changes (log 2, log 10, log 14). -/
def step (s : State) : Host.Outcome State Fault Refusal :=
  match nextPort s.ports with
  | none => .next s
  | some (p, pending) =>
      match decode p pending with
      | .ok (i, q) => exec i { s with ports := q }
      | .error r => noInstruction r p { s with ports := pending }

/-- The instruction of an opcode-table number, offered at its port with the next turn, in front of what is pending. A
link read comes after the frames of an earlier FEED have been pushed (R174; log 5). -/
def State.withFetchWord (s : State) (nbits w : Nat) : State :=
  let words := tableWords nbits w
  let t := if words.turns.any Port.bringsBytes then s.handOver else s
  { t with ports := words.offer t.ports }

end Sys2Proof.Machine
end

