-- ==== Sys2Proof/Safety.lean ====
section
/-! DEFINITION. The terms the claims are stated in: what holds of `BUF` between FEEDs (43_decoder.md R145), the
invariant of the machine, runs of several operations, and the runs in which a flush destroys half a header (R148). -/

namespace Sys2Proof.Machine

/-! ## BUF between FEEDs -/

/-- (Q0) no header marker, and at most the threshold (R145). -/
def BufferQ0 (threshold : Nat) (buf : List Byte) : Prop := find buf header = none ∧ buf.length ≤ threshold

/-- (Q1) a header at offset 0 and fewer than 7 bytes (R145). -/
def BufferQ1 (buf : List Byte) : Prop := buf.take 2 = header ∧ buf.length < minFrame

/-- (Q2) a header at offset 0, at least 7 bytes, fewer than `7 + BUF[3]` (R145). -/
def BufferQ2 (buf : List Byte) : Prop :=
  buf.take 2 = header ∧ minFrame ≤ buf.length ∧ buf.length < minFrame + (buf.getD 3 0).toNat

/-- One of Q0, Q1, Q2 (R145). -/
def BufferInv (threshold : Nat) (buf : List Byte) : Prop :=
  BufferQ0 threshold buf ∨ BufferQ1 buf ∨ BufferQ2 buf

/-- A byte string of the shape of R60 and R61: header marker, and exactly `7 + L` bytes. Footer and checksum are not
looked at. -/
def isCandidate (c : List Byte) : Bool :=
  decide (minFrame ≤ c.length) && c.take 2 == header && c.length == totalLen c

/-- A header marker stands at offset `j`: `0x44` immediately followed by `0x58`, both in the buffer (R132). -/
def HeaderAt (b : List Byte) (j : Nat) : Prop := b[j]? = some 0x44 ∧ b[j + 1]? = some 0x58

/-! ## The machine's invariant -/

/-- What every step keeps: `BUF` is in one of the states of R145; `FQ` and the FRAME channel, pushed or not,
hold Frame objects (R30); a finite queue and a finite buffer are within their limits (R7). -/
structure State.Inv (s : State) : Prop where
  buffer : BufferInv s.cfg.garbageThreshold s.buf
  queued : ∀ f ∈ s.fq, f.wf = true
  emitted : ∀ f ∈ s.out.frames, f.wf = true
  unpushed : ∀ f ∈ s.ports.frames, f.wf = true
  queueFits : within s.fq.length s.cfg.fqDepth = true
  bufferFits : within s.buf.length s.cfg.bufCap = true

/-- What the TX byte channel carries is whole valid frames, one for each successful ENCODE or ENCODE_POSITION, each
contiguous and in offset order (R102, R108). -/
def State.WholeFramesOnTx (s : State) : Prop :=
  ∃ fs : List (List Byte), (∀ f ∈ fs, validFrame f = true) ∧ s.out.txBytes = (fs.map frameBeats).flatten ∧
    fs.length = s.out.txResults.count .encoded

/-- The frames FEED emitted as the rest of the machine holds them: taken by TRY_POP, queued, and not yet pushed. -/
def State.handled (s : State) : List Frame := s.out.pops.filterMap id ++ s.fq ++ s.ports.frames

/-! ## Runs of operations -/

/-- `n` steps, stopping at the first that does not complete. -/
def stepN : Nat → State → Host.Outcome State Fault Refusal
  | 0, s => .next s
  | n + 1, s =>
      match step s with
      | .next t => stepN n t
      | .fault r => .fault r
      | .refused r => .refused r

/-- Operations one after another, stopping at the first that does not complete. -/
def execAll : List Instr → State → Host.Outcome State Fault Refusal
  | [], s => .next s
  | i :: is, s =>
      match exec i s with
      | .next t => execAll is t
      | .fault r => .fault r
      | .refused r => .refused r

/-- `words` offered to the machine in front of what is pending. -/
def State.offered (s : State) (words : Ports) : State := { s with ports := words.offer s.ports }

/-- An instance without the limits of R7, "unbounded": the value R7 gives the model. -/
def State.Unbounded (s : State) : Prop := s.cfg.maxChunk = none ∧ s.cfg.bufCap = none ∧ s.cfg.fqDepth = none

/-- The transmit path of R51, with the serialisation step R104. -/
def isTransmit : Instr → Bool
  | .frame _ _ _ _ _ => false
  | .framePos _ _ _ _ _ => false
  | .feed _ => false
  | .encode _ _ => true
  | .encodePosition _ _ _ _ => true
  | .csum _ => true
  | .validatePosition _ _ _ => true
  | .tryPop => false
  | .reset => false
  | .push _ => false
  | .packPosition _ _ _ => true
  | .unpackPosition _ => false

/-- The receive path of R51; the WIRE rows are FEEDs. -/
def isReceive : Instr → Bool
  | .frame _ _ _ _ _ => true
  | .framePos _ _ _ _ _ => true
  | .feed _ => true
  | .encode _ _ => false
  | .encodePosition _ _ _ _ => false
  | .csum _ => false
  | .validatePosition _ _ _ => false
  | .tryPop => true
  | .reset => false
  | .push _ => true
  | .packPosition _ _ _ => false
  | .unpackPosition _ => true

/-- A FEED, or a WIRE row: the operations that run the decoder. -/
def isFeed : Instr → Bool
  | .frame _ _ _ _ _ => true
  | .framePos _ _ _ _ _ => true
  | .feed _ => true
  | .encode _ _ => false
  | .encodePosition _ _ _ _ => false
  | .csum _ => false
  | .validatePosition _ _ _ => false
  | .tryPop => false
  | .reset => false
  | .push _ => false
  | .packPosition _ _ _ => false
  | .unpackPosition _ => false

/-- The bytes a FEED or a WIRE row brings; nothing for the others. -/
def chunkOf : Instr → List Byte
  | .frame cmd payload checksum footer0 footer1 => wireBytes cmd payload checksum footer0 footer1
  | .framePos cmd x z grip checksum => wirePosBytes cmd x z grip checksum
  | .feed chunk => chunk
  | .encode _ _ => []
  | .encodePosition _ _ _ _ => []
  | .csum _ => []
  | .validatePosition _ _ _ => []
  | .tryPop => []
  | .reset => []
  | .push _ => []
  | .packPosition _ _ _ => []
  | .unpackPosition _ => []

/-! ## Accounting for every byte, and lossy flushes -/

/-- A piece of the stream as a FEED disposed of it: discarded with an event, or accepted as a frame. -/
inductive Piece where
  | discarded (d : Diag)
  | accepted (c : List Byte)
  deriving DecidableEq, Repr

/-- The bytes of a piece. -/
def Piece.bytes : Piece → List Byte
  | .discarded d => d.bytes
  | .accepted c => c

/-- The event of a piece, if it was discarded. -/
def Piece.diag? : Piece → Option Diag
  | .discarded d => some d
  | .accepted _ => none

/-- The Frame object of a piece, if it was accepted. -/
def Piece.frame? : Piece → Option Frame
  | .discarded _ => none
  | .accepted c => some (frameOf c)

/-- A flush is lossy when the discarded buffer ends in `0x44` and the next byte of the stream is `0x58` (R148). -/
def lossyFeed (r : FeedResult) (later : List Byte) : Bool :=
  r.diags.any fun d =>
    d.kind == .garbageFlush && d.bytes.getLast? == some 0x44 && later.head? == some 0x58

/-- Whether FEEDs of these chunks, from this buffer, perform a lossy flush (R148). -/
def lossyRun (threshold : Nat) : List Byte → List (List Byte) → Bool
  | _, [] => false
  | buf, c :: cs =>
      let r := feed threshold buf c
      lossyFeed r cs.flatten || lossyRun threshold r.buf cs

end Sys2Proof.Machine
end

