-- ==== Sys2Proof/Certificates/Slice0/Obligations.lean ====
section
/-! DEFINITION. The statements about the model. Each docstring names the rule of spec/ it formalises, or says that it
rests on an inference the spec marks as its own ([derived]) or on a choice of the model (a log entry). -/

open Sys2Proof Sys2Proof.Machine

/-! ## Words and steps -/

/-- Decode and encode agree, for every well-formed instruction and whatever else is pending at the ports. -/
def Obligations.DecodeReadsBackEncodedWords : Prop :=
  ∀ (i : Instr) (q : Ports), i.wf = true → decode (portOf i) ((wordsOf i).offer q) = .ok (i, q)

/-- A link read of the shape of R60 and R61 is a WIRE row, well-formed, whose own words are those bytes; any other read
is the chunk of a FEED (log 4, log 20: the model's choice). -/
def Obligations.LinkReadsAreWireRowsOrChunks : Prop :=
  ∀ bytes : List Byte,
    (isCandidate bytes = true →
      (decodeRead bytes).wf = true ∧ wordsOf (decodeRead bytes) = { Ports.empty with link := [bytes] }) ∧
    (isCandidate bytes = false → decodeRead bytes = .feed bytes)

/-- R75: a beat `k = 0, l = 0` before the closing beat has no effect, and a closing beat without a byte ends the
stream. -/
def Obligations.BeatsWithoutByteCarryNothing : Prop :=
  (∀ (pre post : List Beat) (d : Byte), (∀ b ∈ pre, Beat.last b = false) →
    decodeStream (pre ++ mkBeat false false d :: post) = decodeStream (pre ++ post)) ∧
  (∀ (bytes : List Byte) (rest : List Beat) (d : Byte),
    decodeStream (bytes.map (mkBeat true false) ++ mkBeat false true d :: rest) = some (bytes, rest))

/-- Words written out from R60, R70 and R75 decode to their rows: the two WIRE rows and the TX command words as the
opcode table numbers them, the POP strobe, and the RX beats of Program 1 step 3. -/
def Obligations.WordsOfTheTableDecodeToTheirRows : Prop :=
  decodeTableWord 16 0x4458 = some (.frame 0 [] 0 0 0) ∧
  decodeTableWord 128 0x44580109008016430000964301BD5844 =
    some (.framePos 0x01 0x43168000 0x43960000 0x01 0xBD) ∧
  decodeTableWord 16 0b0000000101 = some (.encode 0x05 []) ∧
  decodeTableWord 16 0b0100000001 = some (.encodePosition 0x01 0 0 0) ∧
  decodeTableWord 16 0b1000000000 = some (.csum []) ∧
  decodeTableWord 16 0b1100000000 = some (.validatePosition 0 0 0) ∧
  decodeTableWord 8 1 = some .tryPop ∧
  decode .rx { Ports.empty with
      rxBeats := [0b1001000100, 0b1001011000, 0b1000000001, 0b1000001001, 0b1100000000] } =
    .ok (.feed [0x44, 0x58, 0x01, 0x09, 0x00], Ports.empty) ∧
  decode .reset { Ports.empty with resetInput := [0b1] } = .ok (.reset, Ports.empty)

/-- A step runs the instruction decoded at the port whose turn it is, in the state without its words and its turn
(log 2: turns are the model's choice); while a frame waits to be pushed, a turn that brings bytes to FEED stands, and
the step is the PUSH of that frame, also when there is no turn (log 14). -/
def Obligations.StepRunsTheDecodedInstruction : Prop :=
  ∀ s : State,
    (∀ (p : Port) (ps : List Port) (i : Instr) (q : Ports), s.ports.turns = p :: ps →
      p.bringsBytes = false ∨ s.ports.frames = [] →
      decode p { s.ports with turns := ps } = .ok (i, q) → step s = exec i { s with ports := q }) ∧
    (∀ (f : Frame) (rest : List Frame), s.ports.frames = f :: rest → f.wf = true →
      s.ports.turns = [] ∨ (∃ (p : Port) (ps : List Port), s.ports.turns = p :: ps ∧ p.bringsBytes = true) →
      step s = exec (.push f) { s with ports := { s.ports with frames := rest } })

/-- An encoded well-formed instruction, offered in front of what is pending, is what the next step runs, and the step
leaves the pending words as they were; only a FEED or a WIRE row comes after the frames that wait to be pushed
(log 14). -/
def Obligations.OfferedInstructionIsTheNextToRun : Prop :=
  ∀ (s : State) (i : Instr), i.wf = true →
    (isFeed i = false ∨ s.ports.frames = [] → step (s.offered (encode i)) = exec i s) ∧
    (∀ (f : Frame) (rest : List Frame), isFeed i = true → s.ports.frames = f :: rest → f.wf = true →
      step (s.offered (encode i)) =
        exec (.push f) ({ s with ports := { s.ports with frames := rest } }.offered (encode i)))

/-- The same for a number of the opcode table (log 5: which row a shared word is taken as, and that a link read is
placed behind the PUSHes of the waiting frames, is the model's choice). -/
def Obligations.TableWordIsTheNextToRun : Prop :=
  ∀ (s : State) (nbits w : Nat) (i : Instr), decodeTableWord nbits w = some i →
    step (s.withFetchWord nbits w) = exec i (if isFeed i then s.handOver else s)

/-- Without an instruction to run the block waits: nothing changes but the turn, and a strobe of 0 that is gone; only
a record that is no Frame object has no meaning (log 6, log 10: the model's choice). -/
def Obligations.BlockWaitsWithoutAnInstruction : Prop :=
  ∀ s : State,
    (s.ports.turns = [] → s.ports.frames = [] → step s = .next s) ∧
    (∀ (p : Port) (ps : List Port) (r : Reject), s.ports.turns = p :: ps →
      p.bringsBytes = false ∨ s.ports.frames = [] → decode p { s.ports with turns := ps } = .error r →
        (r = .notAFrameObject → step s = .refused .notAFrameObject) ∧
        (r = .strobeLow →
          (p = .pop ∧ ∃ rest, s.ports.popStrobe = 0 :: rest ∧
            step s = .next { s with ports := { s.ports with turns := ps, popStrobe := rest } }) ∨
          (p = .reset ∧ ∃ rest, s.ports.resetInput = 0 :: rest ∧
            step s = .next { s with ports := { s.ports with turns := ps, resetInput := rest } })) ∧
        (r ≠ .notAFrameObject → r ≠ .strobeLow → step s = .next { s with ports := { s.ports with turns := ps } })) ∧
    (∀ (f : Frame) (rest : List Frame), s.ports.frames = f :: rest → f.wf = false →
      s.ports.turns = [] ∨ (∃ (p : Port) (ps : List Port), s.ports.turns = p :: ps ∧ p.bringsBytes = true) →
      step s = .refused .notAFrameObject)

/-! ## Checksum calculator -/

/-- R90: CSUM answers the byte sum modulo 256, for every byte list, in any order; it changes nothing else; its words
are the command word `10 uuuuuuuu` and the operand stream, and its result word is `00 000` and the sum. -/
def Obligations.CsumAnswersTheSumModulo256 : Prop :=
  ∀ (s : State) (bytes : List Byte), ∃ v : Byte,
    v.toNat = (bytes.map BitVec.toNat).sum % 256 ∧
    exec (.csum bytes) s = .next { s with out := { s.out with txResults := s.out.txResults ++ [.sum v] } } ∧
    (TxResult.sum v).word.toNat = v.toNat ∧
    (∀ bytes' : List Byte, bytes.Perm bytes' → exec (.csum bytes') s = exec (.csum bytes) s) ∧
    (∀ u : Byte, step (s.offered { Ports.empty with
        turns := [.tx], txCmd := [mkCmd 0b10 u], txStream := encodeStream bytes }) = exec (.csum bytes) s)

/-! ## Encoder -/

/-- R62: what makes a byte string a valid frame. -/
def Obligations.ValidFrameIsTheFormula : Prop :=
  ∀ c : List Byte, validFrame c = true ↔
    7 ≤ c.length ∧ c.length = 7 + (c.getD 3 0).toNat ∧ c.take 2 = [0x44, 0x58] ∧
      c.drop (c.length - 2) = [0x58, 0x44] ∧
      (c.getD (c.length - 3) 0).toNat = (((c.drop 2).take (c.length - 5)).map BitVec.toNat).sum % 256

/-- R100, R101: a payload of at most 255 bytes gives the frame header, cmd, length, payload, checksum, footer on the TX
byte channel and the answer OK; a longer one gives `InvalidPayload` with its length and not a byte; nothing else
changes; the words are the command word `00 cccccccc` and the operand stream. -/
def Obligations.EncodeSendsTheFrameOrInvalidPayload : Prop :=
  ∀ (s : State) (cmd : Byte) (payload : List Byte),
    (payload.length ≤ 255 → ∃ cs : Byte,
      cs.toNat = (cmd.toNat + payload.length + (payload.map BitVec.toNat).sum) % 256 ∧
      exec (.encode cmd payload) s = .next { s with out := { s.out with
        txBytes := s.out.txBytes ++
          frameBeats ([0x44, 0x58, cmd, BitVec.ofNat 8 payload.length] ++ payload ++ [cs, 0x58, 0x44])
        txResults := s.out.txResults ++ [.encoded] } }) ∧
    (255 < payload.length → exec (.encode cmd payload) s = .next { s with out := { s.out with
      txResults := s.out.txResults ++ [.invalidPayload payload.length] } }) ∧
    step (s.offered { Ports.empty with
      turns := [.tx], txCmd := [mkCmd 0b00 cmd], txStream := encodeStream payload }) = exec (.encode cmd payload) s

/-- The spec's own inference (41_encoder.md, marked [derived]): an encoded frame is valid, shows its command, length
and payload, and determines them. -/
def Obligations.EncodedFramesAreValidAndInjective : Prop :=
  ∀ (cmd : Byte) (payload : List Byte), payload.length ≤ 255 →
    validFrame (buildFrame cmd payload) = true ∧
    (buildFrame cmd payload).length = 7 + payload.length ∧
    (buildFrame cmd payload)[2]? = some cmd ∧
    (buildFrame cmd payload)[3]?.map BitVec.toNat = some payload.length ∧
    ((buildFrame cmd payload).drop 4).take payload.length = payload ∧
    ∀ (cmd' : Byte) (payload' : List Byte), payload'.length ≤ 255 →
      buildFrame cmd payload = buildFrame cmd' payload' → cmd = cmd' ∧ payload = payload'

/-- R75: the beats of a frame are its bytes in order, with `l = 1` on the last one only. -/
def Obligations.TxBeatsMarkTheLastByteOnly : Prop :=
  ∀ bytes : List Byte,
    (frameBeats bytes).length = bytes.length ∧
    ∀ (i : Nat) (h : i < bytes.length), ∃ b : TxBeat, (frameBeats bytes)[i]? = some b ∧
      b.extractLsb' 0 8 = bytes[i] ∧ (b.getLsbD 8 = true ↔ i + 1 = bytes.length)

/-- The spec's decision (41_encoder.md section 1, all or nothing, and section 4): every step keeps the TX byte channel
a sequence of whole valid frames, one for each successful ENCODE or ENCODE_POSITION. -/
def Obligations.TxChannelCarriesWholeFramesOnly : Prop :=
  ∀ s t : State, s.WholeFramesOnTx → step s = .next t → t.WholeFramesOnTx

/-- R104, R43: PACK_POSITION answers nine bytes, `x` and `z` least significant byte first, then `grip`; nothing else
changes. -/
def Obligations.PackPositionIsLittleEndian : Prop :=
  ∀ (s : State) (x z : Word32) (grip : Byte), ∃ p : List Byte,
    exec (.packPosition x z grip) s = .next { s with out := { s.out with packed := s.out.packed ++ [p] } } ∧
    p.length = 9 ∧
    (∀ k < 4, (p.getD k 0).toNat = x.toNat / 256 ^ k % 256) ∧
    (∀ k < 4, (p.getD (4 + k) 0).toNat = z.toNat / 256 ^ k % 256) ∧
    p.getD 8 0 = grip

/-- R106: ENCODE_POSITION answers `OutOfRange` with the whole violation list and sends nothing when there is a
violation; otherwise it is ENCODE of the packed position, which succeeds with a frame of 16 bytes. -/
def Obligations.EncodePositionValidatesThenEncodes : Prop :=
  ∀ (s : State) (cmd : Byte) (x z : Word32) (grip : Byte),
    (positionViolations s.cfg x z grip = [] →
      exec (.encodePosition cmd x z grip) s = exec (.encode cmd (le32 x ++ le32 z ++ [grip])) s ∧
      ∃ t f, exec (.encodePosition cmd x z grip) s = .next t ∧ f.length = 16 ∧
        t = { s with out := { s.out with
          txBytes := s.out.txBytes ++ frameBeats f, txResults := s.out.txResults ++ [.encoded] } }) ∧
    (positionViolations s.cfg x z grip ≠ [] →
      exec (.encodePosition cmd x z grip) s = .next { s with out := { s.out with
        txResults := s.out.txResults ++ [.outOfRange (positionViolations s.cfg x z grip)] } }) ∧
    step (s.offered { Ports.empty with
      turns := [.tx], txCmd := [mkCmd 0b01 cmd], txOperand := [mkOperand x z grip] }) =
        exec (.encodePosition cmd x z grip) s

/-- The worked example (41_encoder.md, the spec's own inference over general knowledge of binary32, log 11):
`encode(0x01, 150.5, 300.0, 1)`, at the built-in bounds. -/
def Obligations.WorkedExampleOfThePositionCommand : Prop :=
  ∀ s : State, s.cfg = Config.builtIn →
    exec (.encodePosition 0x01 0x43168000 0x43960000 0x01) s = .next { s with out := { s.out with
      txBytes := s.out.txBytes ++ frameBeats
        [0x44, 0x58, 0x01, 0x09, 0x00, 0x80, 0x16, 0x43, 0x00, 0x00, 0x96, 0x43, 0x01, 0xBD, 0x58, 0x44]
      txResults := s.out.txResults ++ [.encoded] } }

/-! ## Validator -/

/-- R120: VALIDATE_POSITION answers all violated fields, in the order `x`, `z`, `grip`; a field is violated exactly when
its inequality is false; nothing else changes; the words are the command word `11 uuuuuuuu` and the operand word. -/
def Obligations.ValidatePositionListsEveryViolation : Prop :=
  ∀ (s : State) (x z : Word32) (grip : Byte), ∃ v : List PosField,
    exec (.validatePosition x z grip) s =
      .next { s with out := { s.out with txResults := s.out.txResults ++ [.violations v] } } ∧
    v.Sublist [.x, .z, .grip] ∧
    (PosField.x ∈ v ↔ ¬ (F32.le (f32val s.cfg.minX) (f32val x) = true ∧ F32.le (f32val x) (f32val s.cfg.maxX) = true)) ∧
    (PosField.z ∈ v ↔ ¬ (F32.le (f32val s.cfg.minZ) (f32val z) = true ∧ F32.le (f32val z) (f32val s.cfg.maxZ) = true)) ∧
    (PosField.grip ∈ v ↔ grip.toNat ≠ 0 ∧ grip.toNat ≠ 1) ∧
    (∀ u : Byte, step (s.offered { Ports.empty with
        turns := [.tx], txCmd := [mkCmd 0b11 u], txOperand := [mkOperand x z grip] }) =
          exec (.validatePosition x z grip) s)

/-- R122 (the spec's decision): the mask of a violation list, and its place in the result words of VALIDATE_POSITION
and of `OutOfRange`; and the codes of R181: on the TX result word, on the DIAG channel (R31) and as FEED status
(R32). -/
def Obligations.ResultWordsCarryCodeAndMask : Prop :=
  (∀ (v : List PosField) (n : Nat),
    ((violationMask v).getLsbD 0 = true ↔ PosField.x ∈ v) ∧
    ((violationMask v).getLsbD 1 = true ↔ PosField.z ∈ v) ∧
    ((violationMask v).getLsbD 2 = true ↔ PosField.grip ∈ v) ∧
    (TxResult.violations v).word.toNat = 256 * (violationMask v).toNat ∧
    (TxResult.outOfRange v).word.toNat = 4096 + 256 * (violationMask v).toNat ∧
    (TxResult.invalidPayload n).word.toNat = 2048 ∧
    TxResult.encoded.word.toNat = 0) ∧
  (∀ r : TxResult, r.code ≠ 3) ∧
  DiagKind.garbageTrim.code = 0 ∧ DiagKind.garbageFlush.code = 1 ∧
  DiagKind.corruptFooter.code = 2 ∧ DiagKind.corruptChecksum.code = 3 ∧
  StopReason.idleNoHeader.code = 0 ∧ StopReason.flushed.code = 1 ∧
  StopReason.partialMin.code = 2 ∧ StopReason.partialLen.code = 3

/-- General knowledge of binary32 as 30_encoding.md part 2 gives it (log 11): the value of a pattern with sign `b`,
biased exponent `e`, fraction `f`. -/
def Obligations.PatternsHaveTheirBinary32Values : Prop :=
  ∀ (w : Word32) (b e f : Nat), b < 2 → e < 256 → f < 2 ^ 23 → w.toNat = b * 2 ^ 31 + e * 2 ^ 23 + f →
    (e = 255 → f ≠ 0 → f32val w = .nan) ∧
    (e = 255 → f = 0 → f32val w = if b = 1 then .negInf else .posInf) ∧
    (0 < e → e < 255 → ∃ n : Int, f32val w = .finite n ∧
      (n : ℚ) / 2 ^ 149 = (-1) ^ b * (2 : ℚ) ^ ((e : Int) - 127) * (1 + (f : ℚ) / 2 ^ 23)) ∧
    (e = 0 → ∃ n : Int, f32val w = .finite n ∧
      (n : ℚ) / 2 ^ 149 = (-1) ^ b * (2 : ℚ) ^ (-126 : Int) * ((f : ℚ) / 2 ^ 23))

/-- The spec's decision on special values (42_validator.md, table of corner cases): at the built-in bounds the valid
`x` are exactly the patterns from `+0.0` to 1000.0 and `-0.0`, and the valid `z` those from `+0.0` to 500.0 and `-0.0`. So
every other negative value, every infinity and every NaN is a violation. -/
def Obligations.ValidPatternsAtTheBuiltInBounds : Prop :=
  ∀ (s : State) (x z : Word32) (grip : Byte), s.cfg = Config.builtIn → ∃ v : List PosField,
    exec (.validatePosition x z grip) s =
      .next { s with out := { s.out with txResults := s.out.txResults ++ [.violations v] } } ∧
    (PosField.x ∉ v ↔ x.toNat ≤ 0x447A0000 ∨ x = 0x80000000) ∧
    (PosField.z ∉ v ↔ z.toNat ≤ 0x43FA0000 ∨ z = 0x80000000)

/-! ## Decoder: the steps -/

/-- FEED, and the WIRE rows, which are FEEDs (log 4, the model's choice), never fail (R141 of FEED): for every `BUF` and
every chunk an unbounded instance (R7), and a finite one with room for the chunk (log 8), completes, drops bytes from
the front of `BUF` and the chunk only, puts frames on the FRAME channel (log 14) and events on the DIAG channel, gives
one stop reason, and leaves everything else as it was. Where a statement below gives a FEED's whole result, it is
`s.commitFeed ⟨BUF, frames, events, stop reason⟩`, the state spelled out here. -/
def Obligations.FeedNeverFails : Prop :=
  ∀ (i : Instr) (s : State), isFeed i = true → s.Unbounded ∨ s.accepts (chunkOf i) = true →
    ∃ (t : State) (fs : List Frame) (ds : List Diag) (r : StopReason),
      exec i s = .next t ∧ t.buf <:+ s.buf ++ chunkOf i ∧
      t = s.commitFeed ⟨t.buf, fs, ds, r⟩ ∧
      t = { s with
        buf := t.buf
        ports := { s.ports with frames := s.ports.frames ++ fs }
        out := { s.out with
          frames := s.out.frames ++ fs, diags := s.out.diags ++ ds, status := s.out.status ++ [r] } }

/-- R141: FEED is total, for every `BUF` and every chunk; it answers its stop reason and never a failure. -/
def Obligations.FeedIsTotal : Prop :=
  ∀ (s : State) (chunk : List Byte), s.Unbounded → ∃ (t : State) (r : StopReason),
    exec (.feed chunk) s = .next t ∧ t.out.status = s.out.status ++ [r] ∧ t.out.txResults = s.out.txResults

/-- The only instructions that stop, and when (U7, U8 of 93_implementation_defined.md, 'refuse'; log 8): a FEED whose
chunk is over a finite MAX_CHUNK or does not fit a finite BUF_CAP, and a PUSH on a full finite queue. -/
def Obligations.OnlyFiniteInstancesRefuse : Prop :=
  ∀ (i : Instr) (s : State) (r : Refusal), exec i s = .refused r ↔
    (r = .chunkOverCapacity ∧ isFeed i = true ∧
      ((∃ m, s.cfg.maxChunk = some m ∧ m < (chunkOf i).length) ∨
        (∃ c, s.cfg.bufCap = some c ∧ c < s.buf.length + (chunkOf i).length))) ∨
    (r = .frameQueueFull ∧ (∃ f, i = .push f) ∧ ∃ d, s.cfg.fqDepth = some d ∧ d ≤ s.fq.length)

/-- FRAME and FRAME.POS are FEEDs of the bytes R60 and R70 give them (log 4: the model's choice), and a position frame
is a frame. -/
def Obligations.WireRowsAreFeedsOfTheirBytes : Prop :=
  ∀ (s : State) (cmd : Byte) (payload : List Byte) (checksum f0 f1 : Byte) (x z : Word32) (grip : Byte),
    exec (.frame cmd payload checksum f0 f1) s =
      exec (.feed ([0x44, 0x58, cmd, BitVec.ofNat 8 payload.length] ++ payload ++ [checksum, f0, f1])) s ∧
    exec (.framePos cmd x z grip checksum) s =
      exec (.feed ([0x44, 0x58, cmd, 0x09] ++ le32 x ++ le32 z ++ [grip, checksum, 0x58, 0x44])) s ∧
    exec (.framePos cmd x z grip checksum) s =
      exec (.frame cmd (le32 x ++ le32 z ++ [grip]) checksum 0x58 0x44) s

/-- Step 0 (the spec's decision D5): the whole chunk joins `BUF` before anything is searched, and an empty chunk still
runs the loop. -/
def Obligations.FeedAppendsTheWholeChunkFirst : Prop :=
  ∀ (s : State) (chunk : List Byte), s.accepts chunk = true →
    exec (.feed chunk) s = exec (.feed []) { s with buf := s.buf ++ chunk }

/-- Steps 1 and 2 (R132, R133). No header: a buffer over the threshold is flushed, reported and the FEED ends; another
waits. A header at the least offset `i`: the `i` bytes before it are dropped and reported in one event, none when `i` is
0, and the FEED goes on; the threshold plays no part. -/
def Obligations.SearchFlushesWaitsOrTrims : Prop :=
  ∀ (s : State) (chunk b : List Byte), s.accepts chunk = true → b = s.buf ++ chunk →
    ((∀ j, ¬ HeaderAt b j) → s.cfg.garbageThreshold < b.length →
      exec (.feed chunk) s = .next { s with buf := [], out := { s.out with
        diags := s.out.diags ++ [⟨.garbageFlush, b⟩], status := s.out.status ++ [.flushed] } }) ∧
    ((∀ j, ¬ HeaderAt b j) → b.length ≤ s.cfg.garbageThreshold →
      exec (.feed chunk) s = .next { s with buf := b, out := { s.out with
        status := s.out.status ++ [.idleNoHeader] } }) ∧
    (∀ i, HeaderAt b i → (∀ j < i, ¬ HeaderAt b j) →
      (b.drop i).take 2 = [0x44, 0x58] ∧
      exec (.feed chunk) s = exec (.feed []) { s with buf := b.drop i, out := { s.out with
        diags := s.out.diags ++ if i = 0 then [] else [⟨.garbageTrim, b.take i⟩] } })

/-- Steps 3 and 4 (R134, R135). Behind a header at offset 0, fewer than 7 bytes wait, and so do fewer than
`7 + BUF[3]`, a sum from 7 to 262 that is not reduced modulo 256; nothing is reported. -/
def Obligations.PartialFramesWait : Prop :=
  ∀ (s : State) (chunk b : List Byte), s.accepts chunk = true → b = s.buf ++ chunk → b.take 2 = [0x44, 0x58] →
    (b.length < 7 → exec (.feed chunk) s = .next { s with buf := b, out := { s.out with
      status := s.out.status ++ [.partialMin] } }) ∧
    (7 ≤ b.length → b.length < 7 + (b.getD 3 0).toNat →
      exec (.feed chunk) s = .next { s with buf := b, out := { s.out with
        status := s.out.status ++ [.partialLen] } }) ∧
    totalLen b = 7 + (b.getD 3 0).toNat ∧ 7 ≤ totalLen b ∧ totalLen b ≤ 262

/-- Steps 5 to 8 (R136, R137, R138, R139). With a header at offset 0 and `7 + L` bytes present, exactly these leave
`BUF`. A wrong footer: one CORRUPT_FOOTER event with them, the checksum not examined. A right footer and a wrong
checksum: one CORRUPT_CHECKSUM event. Both right: one Frame object, no event. Then the FEED goes on from step 1 with
what followed them; nothing inside them is searched again. -/
def Obligations.CandidateIsDiscardedOrEmitted : Prop :=
  ∀ (s : State) (chunk b c : List Byte) (n : Nat), s.accepts chunk = true → b = s.buf ++ chunk →
    b.take 2 = [0x44, 0x58] → 7 ≤ b.length → n = 7 + (b.getD 3 0).toNat → n ≤ b.length → c = b.take n →
    (c.drop (n - 2) ≠ [0x58, 0x44] →
      exec (.feed chunk) s = exec (.feed []) { s with buf := b.drop n, out := { s.out with
        diags := s.out.diags ++ [⟨.corruptFooter, c⟩] } }) ∧
    (c.drop (n - 2) = [0x58, 0x44] →
      (((c.drop 2).take (n - 5)).map BitVec.toNat).sum % 256 ≠ (c.getD (n - 3) 0).toNat →
      exec (.feed chunk) s = exec (.feed []) { s with buf := b.drop n, out := { s.out with
        diags := s.out.diags ++ [⟨.corruptChecksum, c⟩] } }) ∧
    (c.drop (n - 2) = [0x58, 0x44] →
      (((c.drop 2).take (n - 5)).map BitVec.toNat).sum % 256 = (c.getD (n - 3) 0).toNat →
      exec (.feed chunk) s =
        exec (.feed []) { s.emit [⟨c.getD 2 0, c.getD 3 0, (c.drop 4).take (n - 7)⟩] with buf := b.drop n })

/-- What a frame-shaped string does in an empty buffer, whatever its payload holds (R72; the order of the two checks is
the spec's own inference, 60_exceptions.md section 3). -/
def Obligations.FrameIntoEmptyBufferIsJudged : Prop :=
  ∀ (s : State) (cmd : Byte) (payload : List Byte) (checksum f0 f1 : Byte) (c : List Byte), s.buf = [] →
    payload.length ≤ 255 → c = wireBytes cmd payload checksum f0 f1 → s.accepts c = true →
    ([f0, f1] ≠ [0x58, 0x44] → exec (.frame cmd payload checksum f0 f1) s =
      .next (s.commitFeed ⟨[], [], [⟨.corruptFooter, c⟩], .idleNoHeader⟩)) ∧
    ([f0, f1] = [0x58, 0x44] →
      (cmd.toNat + payload.length + (payload.map BitVec.toNat).sum) % 256 ≠ checksum.toNat →
      exec (.frame cmd payload checksum f0 f1) s =
        .next (s.commitFeed ⟨[], [], [⟨.corruptChecksum, c⟩], .idleNoHeader⟩)) ∧
    ([f0, f1] = [0x58, 0x44] →
      (cmd.toNat + payload.length + (payload.map BitVec.toNat).sum) % 256 = checksum.toNat →
      exec (.frame cmd payload checksum f0 f1) s =
        .next (s.commitFeed ⟨[], [⟨cmd, BitVec.ofNat 8 payload.length, payload⟩], [], .idleNoHeader⟩))

/-! ## Decoder: what follows from the steps (the spec's own inferences, 43_decoder.md section 4) -/

/-- After every FEED, from any buffer, exactly one of Q0, Q1, Q2 holds, and the stop reason says which. -/
def Obligations.FeedLeavesOneOfThreeBuffers : Prop :=
  ∀ (threshold : Nat) (buf chunk : List Byte) (r : FeedResult), r = feed threshold buf chunk →
    ((BufferQ0 threshold r.buf ∧ ¬ BufferQ1 r.buf ∧ ¬ BufferQ2 r.buf) ∨
      (¬ BufferQ0 threshold r.buf ∧ BufferQ1 r.buf ∧ ¬ BufferQ2 r.buf) ∨
      (¬ BufferQ0 threshold r.buf ∧ ¬ BufferQ1 r.buf ∧ BufferQ2 r.buf)) ∧
    (r.stop = .idleNoHeader → BufferQ0 threshold r.buf) ∧
    (r.stop = .flushed → BufferQ0 threshold r.buf ∧ r.buf = []) ∧
    (r.stop = .partialMin → BufferQ1 r.buf) ∧
    (r.stop = .partialLen → BufferQ2 r.buf)

/-- The invariant of the machine: `BUF` in one of the states Q0, Q1, Q2; every frame in `FQ` or on the FRAME channel,
pushed or not, a Frame object; finite limits kept. Every step keeps it. -/
def Obligations.EveryStepKeepsTheInvariant : Prop :=
  ∀ s t : State, s.Inv → step s = .next t → t.Inv

/-- The invariants hold at reset. That nothing has been sent or emitted and no frame waits there is the model's choice
(log 18); the empty `BUF` and `FQ` are R34's. -/
def Obligations.InvariantsHoldAtReset : Prop :=
  State.reset.Inv ∧ State.reset.WholeFramesOnTx ∧ State.reset.handled = State.reset.out.frames

/-- What a FEED leaves in `BUF` is at most 261 bytes, or the threshold where that is larger, and the threshold without
a header; so an instance with `BUF_CAP >= 261 + MAX_CHUNK` never refuses a chunk of at most `MAX_CHUNK` bytes. -/
def Obligations.ResidualBufferIsBounded : Prop :=
  (∀ (i : Instr) (s t : State), isFeed i = true → exec i s = .next t →
    t.buf.length ≤ max s.cfg.garbageThreshold 261 ∧
    ((∀ j, ¬ HeaderAt t.buf j) → t.buf.length ≤ s.cfg.garbageThreshold)) ∧
  (∀ (s : State) (chunk : List Byte) (m cap : Nat), s.Inv → s.cfg.garbageThreshold ≤ 261 →
    s.cfg.maxChunk = some m → s.cfg.bufCap = some cap → 261 + m ≤ cap → chunk.length ≤ m →
    ∃ t, exec (.feed chunk) s = .next t)

/-- FEED of the empty chunk, from a state that meets the invariant, changes nothing but the FEED status. -/
def Obligations.EmptyFeedChangesNothing : Prop :=
  ∀ s : State, s.Inv → ∃ r : StopReason,
    exec (.feed []) s = .next { s with out := { s.out with status := s.out.status ++ [r] } } ∧
    (BufferQ0 s.cfg.garbageThreshold s.buf → r = .idleNoHeader) ∧
    (BufferQ1 s.buf → r = .partialMin) ∧
    (BufferQ2 s.buf → r = .partialLen)

/-- Nothing is dropped without a trace, and nothing is emitted that is not a valid frame: the old buffer and the chunk
are, in order, pieces discarded with one event each and pieces accepted as one frame each, and then the buffer that is
left. Discarded candidates are frame-shaped and not valid; discarded garbage holds no header. -/
def Obligations.EveryByteIsAccountedFor : Prop :=
  ∀ (i : Instr) (s t : State), isFeed i = true → exec i s = .next t → ∃ ps : List Piece,
    (ps.map Piece.bytes).flatten ++ t.buf = s.buf ++ chunkOf i ∧
    t.out.diags = s.out.diags ++ ps.filterMap Piece.diag? ∧
    t.out.frames = s.out.frames ++ ps.filterMap Piece.frame? ∧
    t.ports.frames = s.ports.frames ++ ps.filterMap Piece.frame? ∧
    (∀ c, Piece.accepted c ∈ ps → validFrame c = true) ∧
    (∀ d, Piece.discarded d ∈ ps → d.kind = .corruptFooter ∨ d.kind = .corruptChecksum →
      isCandidate d.bytes = true ∧ validFrame d.bytes = false) ∧
    (∀ d, Piece.discarded d ∈ ps → d.kind = .garbageTrim ∨ d.kind = .garbageFlush →
      d.bytes ≠ [] ∧ ∀ j, ¬ HeaderAt d.bytes j)

/-- How a stream is cut into chunks does not change the frames it gives, unless a run performs a lossy flush. -/
def Obligations.ChunkingIsInvisibleWithoutLossyFlush : Prop :=
  ∀ (s : State) (cs ds : List (List Byte)), s.buf = [] → s.Unbounded → cs.flatten = ds.flatten →
    lossyRun s.cfg.garbageThreshold [] cs = false → lossyRun s.cfg.garbageThreshold [] ds = false →
    ∃ t u : State, execAll (cs.map .feed) s = .next t ∧ execAll (ds.map .feed) s = .next u ∧
      t.out.frames = u.out.frames

/-- The hazard of a flush across a header (70_reset_and_hazards.md section 3), for every encoded frame that holds no
header marker but its own: with as many zeros as the threshold in front, a cut between the `44` and the `58` of the
header loses the frame, and one chunk delivers it. -/
def Obligations.FlushAcrossAHeaderLosesTheFrame : Prop :=
  ∀ (s : State) (cmd : Byte) (payload f g : List Byte), s.buf = [] → s.Unbounded → payload.length ≤ 255 →
    f = buildFrame cmd payload → (∀ j, ¬ HeaderAt (f.drop 1) j) →
    g = List.replicate s.cfg.garbageThreshold 0x00 →
    ∃ t u : State,
      execAll [.feed (g ++ [0x44]), .feed (f.drop 1)] s = .next t ∧ exec (.feed (g ++ f)) s = .next u ∧
      t.out.frames = s.out.frames ∧
      u.out.frames = s.out.frames ++ [⟨cmd, BitVec.ofNat 8 payload.length, payload⟩]

/-- A stream of encoded frames and nothing else, under every chunking, from an empty buffer: exactly these frames in
order, no event, an empty buffer. (The threshold is at least 1: a first header byte waits alone.) -/
def Obligations.BackToBackFramesSurviveEveryChunking : Prop :=
  ∀ (s : State) (ms : List (Byte × List Byte)) (cs : List (List Byte)) (fs : List Frame), s.buf = [] → s.Unbounded →
    1 ≤ s.cfg.garbageThreshold → (∀ m ∈ ms, m.2.length ≤ 255) →
    cs.flatten = (ms.map fun m => buildFrame m.1 m.2).flatten →
    fs = ms.map (fun m => ⟨m.1, BitVec.ofNat 8 m.2.length, m.2⟩) →
    ∃ (t : State) (rs : List StopReason), execAll (cs.map .feed) s = .next t ∧
      t = { s.emit fs with out := { (s.emit fs).out with status := s.out.status ++ rs } }

/-- Encoder and decoder agree (41_encoder.md, the spec's own inference): the bytes ENCODE sends, fed into an empty
buffer, give exactly the frame, no event, an empty buffer and the stop reason IDLE_NO_HEADER. -/
def Obligations.EncodeThenFeedRoundTrip : Prop :=
  ∀ (s : State) (cmd : Byte) (payload : List Byte), s.buf = [] → s.Unbounded → payload.length ≤ 255 →
    ∃ bytes : List Byte,
      exec (.encode cmd payload) s = .next { s with out := { s.out with
        txBytes := s.out.txBytes ++ frameBeats bytes, txResults := s.out.txResults ++ [.encoded] } } ∧
      exec (.feed bytes) s =
        .next (s.commitFeed ⟨[], [⟨cmd, BitVec.ofNat 8 payload.length, payload⟩], [], .idleNoHeader⟩)

/-- The position round trip is exact, bit for bit (the spec's decision D14): for operands without a violation
ENCODE_POSITION sends the bytes of the position frame with the right checksum; that frame, for every operand, valid or
not, is emitted; and UNPACK_POSITION of the Frame object gives the operands back. -/
def Obligations.PositionRoundTripIsExact : Prop :=
  ∀ (s : State) (cmd : Byte) (x z : Word32) (grip checksum : Byte), s.buf = [] → s.Unbounded →
    checksum = sum8 ([cmd, 0x09] ++ le32 x ++ le32 z ++ [grip]) →
    (positionViolations s.cfg x z grip = [] →
      exec (.encodePosition cmd x z grip) s = .next { s with out := { s.out with
        txBytes := s.out.txBytes ++ frameBeats (chunkOf (.framePos cmd x z grip checksum))
        txResults := s.out.txResults ++ [.encoded] } }) ∧
    ∃ (f : Frame) (t : State), exec (.framePos cmd x z grip checksum) s = .next t ∧
      exec (.feed (chunkOf (.framePos cmd x z grip checksum))) s = .next t ∧
      t = s.commitFeed ⟨[], [f], [], .idleNoHeader⟩ ∧ f.cmd = cmd ∧ f.length = 9 ∧
      exec (.unpackPosition f) t = .next { t with out := { t.out with
        unpacked := t.out.unpacked ++ [some ⟨x, z, grip⟩] } }

/-- Resynchronization: garbage without a header marker, together with what is buffered, and then a frame in the same
chunk: the garbage is one trim event (none when there is none) and the frame is emitted. -/
def Obligations.ResynchronizesAfterGarbage : Prop :=
  ∀ (s : State) (g : List Byte) (cmd : Byte) (payload : List Byte), s.Unbounded → payload.length ≤ 255 →
    (∀ j, ¬ HeaderAt (s.buf ++ g) j) →
    exec (.feed (g ++ buildFrame cmd payload)) s = .next (s.commitFeed
      ⟨[], [⟨cmd, BitVec.ofNat 8 payload.length, payload⟩],
        if s.buf ++ g = [] then [] else [⟨.garbageTrim, s.buf ++ g⟩], .idleNoHeader⟩)

/-- Detection strength (40_checksum.md section 2, the spec's own inference): one flipped bit in the command, in a
payload byte or in the checksum byte of a valid frame makes it a CORRUPT_CHECKSUM discard. -/
def Obligations.SingleBitFlipsAreDetected : Prop :=
  ∀ (s : State) (cmd : Byte) (payload : List Byte) (checksum : Byte) (k : Nat), s.buf = [] → s.Unbounded →
    payload.length ≤ 255 → k < 8 →
    checksum.toNat = (cmd.toNat + payload.length + (payload.map BitVec.toNat).sum) % 256 →
    (∀ (cmd' : Byte) (payload' : List Byte) (checksum' : Byte),
      (cmd' = cmd ^^^ (1#8 <<< k) ∧ payload' = payload ∧ checksum' = checksum) ∨
      (∃ (n : Nat) (h : n < payload.length), cmd' = cmd ∧ checksum' = checksum ∧
        payload' = payload.set n (payload[n] ^^^ (1#8 <<< k))) ∨
      (cmd' = cmd ∧ payload' = payload ∧ checksum' = checksum ^^^ (1#8 <<< k)) →
      exec (.frame cmd' payload' checksum' 0x58 0x44) s = .next { s with out := { s.out with
        diags := s.out.diags ++ [⟨.corruptChecksum, wireBytes cmd' payload' checksum' 0x58 0x44⟩]
        status := s.out.status ++ [.idleNoHeader] } })

/-- The sum's weakness (70_reset_and_hazards.md section 3, the spec's own inference): another payload of the same length
and the same byte sum is accepted under the same checksum. -/
def Obligations.EqualSumsAreNotDetected : Prop :=
  ∀ (s : State) (cmd : Byte) (payload payload' : List Byte) (checksum : Byte), s.buf = [] → s.Unbounded →
    payload.length ≤ 255 → payload'.length = payload.length →
    (payload'.map BitVec.toNat).sum % 256 = (payload.map BitVec.toNat).sum % 256 →
    checksum.toNat = (cmd.toNat + payload.length + (payload.map BitVec.toNat).sum) % 256 →
    exec (.frame cmd payload' checksum 0x58 0x44) s =
      .next (s.commitFeed ⟨[], [⟨cmd, BitVec.ofNat 8 payload.length, payload'⟩], [], .idleNoHeader⟩)

/-! ## Dispatcher -/

/-- R171: PUSH appends the frame and changes nothing else, in an unbounded queue (R7) and in a finite one with room. -/
def Obligations.PushAppendsToTheQueue : Prop :=
  ∀ (s : State) (f : Frame), (s.cfg.fqDepth = none ∨ ∃ d, s.cfg.fqDepth = some d ∧ s.fq.length < d) →
    exec (.push f) s = .next { s with fq := s.fq ++ [f] }

/-- R172: TRY_POP takes the oldest frame, or answers `NONE`; the POP strobe 1 asks for it. -/
def Obligations.TryPopTakesTheOldest : Prop :=
  ∀ s : State,
    (s.fq = [] → exec .tryPop s = .next { s with out := { s.out with pops := s.out.pops ++ [none] } }) ∧
    (∀ (f : Frame) (rest : List Frame), s.fq = f :: rest →
      exec .tryPop s = .next { s with fq := rest, out := { s.out with pops := s.out.pops ++ [some f] } }) ∧
    step (s.offered { Ports.empty with turns := [.pop], popStrobe := [0b1] }) = exec .tryPop s

/-- Frames leave `FQ` in the order they were pushed, each once, behind those already there (20_memory.md section 5). -/
def Obligations.QueueDeliversInOrderOnce : Prop :=
  ∀ (s : State) (fs : List Frame), s.Unbounded →
    execAll (fs.map .push ++ List.replicate (s.fq.length + fs.length) .tryPop) s =
      .next { s with fq := [], out := { s.out with pops := s.out.pops ++ (s.fq ++ fs).map some } }

/-- R174, as steps (the FRAME channel between FEED and PUSH is the model's field, log 14): the frames the rest of the
machine holds, taken by TRY_POP, then queued, then waiting for their PUSH, are frames FEED emitted, in the order of
emission and none twice; and they are all of them as long as no RESET drops the queue. -/
def Obligations.FramesReachTheQueueOnceInOrder : Prop :=
  ∀ s t : State, step s = .next t →
    (s.handled.Sublist s.out.frames → t.handled.Sublist t.out.frames) ∧
    (s.handled = s.out.frames → (∀ (p : Port) (pending q : Ports),
      nextPort s.ports = some (p, pending) → decode p pending ≠ .ok (.reset, q)) → t.handled = t.out.frames)

/-- R174 (log 14: the model's choice of when): before the next bytes are brought to FEED, and when no turn is left, the
steps push every frame that waits, in order, into `FQ`, and do nothing else. -/
def Obligations.WaitingFramesArePushedBeforeMoreBytes : Prop :=
  ∀ s : State, s.cfg.fqDepth = none → (∀ f ∈ s.ports.frames, f.wf = true) →
    s.ports.turns = [] ∨ (∃ (p : Port) (ps : List Port), s.ports.turns = p :: ps ∧ p.bringsBytes = true) →
    stepN s.ports.frames.length s =
      .next { s with fq := s.fq ++ s.ports.frames, ports := { s.ports with frames := [] } }

/-- R175: UNPACK_POSITION of a Frame object: `NONE` unless its length is 9, else the fields whose packing is the
payload; no range check, no look at the command; nothing else changes. -/
def Obligations.UnpackPositionInvertsPack : Prop :=
  ∀ (s : State) (f : Frame), f.wf = true →
    (f.length.toNat ≠ 9 → exec (.unpackPosition f) s =
      .next { s with out := { s.out with unpacked := s.out.unpacked ++ [none] } }) ∧
    (f.length.toNat = 9 → ∃ (x z : Word32) (grip : Byte), f.payload = le32 x ++ le32 z ++ [grip] ∧
      exec (.unpackPosition f) s =
        .next { s with out := { s.out with unpacked := s.out.unpacked ++ [some ⟨x, z, grip⟩] } }) ∧
    (∀ (c : Byte) (x z : Word32) (grip : Byte),
      exec (.unpackPosition ⟨c, 9, le32 x ++ le32 z ++ [grip]⟩) s =
        .next { s with out := { s.out with unpacked := s.out.unpacked ++ [some ⟨x, z, grip⟩] } })

/-! ## Reset, and rules of the whole machine -/

/-- R210: RESET empties `BUF` and `FQ`, both states of the block, without an event, and leaves the constants as they
are; the RESET input 1 asks for it. -/
def Obligations.ResetEmptiesBufferAndQueue : Prop :=
  ∀ s : State,
    (∃ t : State, exec .reset s = .next t ∧ t.buf = [] ∧ t.fq = [] ∧ t.cfg = s.cfg ∧ t.out.diags = s.out.diags) ∧
    step (s.offered { Ports.empty with turns := [.reset], resetInput := [0b1] }) = exec .reset s

/-- RESET changes nothing but `BUF`, `FQ` and the frames on their way to `FQ`, which are discarded as if their PUSHes
had come before it (D22; log 14); then nothing is in progress (R212, the spec's own inference): no step changes
anything while nobody takes a turn, and repeating RESET changes nothing. That the words still pending at the ports and
the results already sent stay is the model's choice (log 9). -/
def Obligations.ResetLeavesEverythingElse : Prop :=
  ∀ (s t : State), t = { s with buf := [], fq := [], ports := { s.ports with frames := [] } } →
    exec .reset s = .next t ∧ exec .reset s.handOver = .next t ∧ execAll [.reset, .reset] s = .next t ∧
      (s.ports.turns = [] → ∀ n : Nat, stepN n t = .next t)

/-- R34: after RESET, `BUF` and `FQ` are empty and the configuration constants hold their built-in values. -/
def Obligations.StateRightAfterReset : Prop :=
  State.reset.buf = [] ∧ State.reset.fq = [] ∧ State.reset.cfg = Config.builtIn ∧ State.reset.Unbounded

/-- The built-in bounds, as patterns, are the numbers of R6 (binary32 is general knowledge, log 11), and the threshold
is 100. -/
def Obligations.BuiltInBoundsAreTheNumbersOfTheTable : Prop :=
  Config.builtIn.garbageThreshold = 100 ∧
    f32val Config.builtIn.minX = .finite 0 ∧ f32val Config.builtIn.maxX = .finite (1000 * 2 ^ 149) ∧
    f32val Config.builtIn.minZ = .finite 0 ∧ f32val Config.builtIn.maxZ = .finite (500 * 2 ^ 149)

/-- Who may write what (10_state.md section 1): `BUF` by FEED (and the WIRE rows) and RESET only, `FQ` by PUSH, TRY_POP
and RESET only, the constants by nothing (R27). That no instruction, RESET among them, touches the words offered at
the ports, and that on the FRAME channel FEED alone adds frames and RESET alone discards them, is the model's choice
(log 2, log 9, log 14). -/
def Obligations.OnlyTheirWritersChangeBufferAndQueue : Prop :=
  ∀ (i : Instr) (s t : State), exec i s = .next t →
    (t.buf ≠ s.buf → isFeed i = true ∨ i = .reset) ∧
    (t.fq ≠ s.fq → (∃ f, i = .push f) ∨ i = .tryPop ∨ i = .reset) ∧
    t.cfg = s.cfg ∧
    (isFeed i = false → i ≠ .reset → t.ports = s.ports) ∧
    (i = .reset → t.ports = { s.ports with frames := [] }) ∧
    (isFeed i = true → ∃ fs, t.ports = { s.ports with frames := s.ports.frames ++ fs } ∧
      t.out.frames = s.out.frames ++ fs)

/-- The transmit path and the pure receive function UNPACK_POSITION neither read nor write `BUF` and `FQ`
(20_memory.md sections 4 and 5, the spec's own inference): with any other `BUF` and `FQ` they do the same and leave
these as they are. -/
def Obligations.PureOperationsIgnoreBufferAndQueue : Prop :=
  ∀ (i : Instr) (s : State) (buf : List Byte) (fq : List Frame),
    isTransmit i = true ∨ (∃ f, i = .unpackPosition f) →
    ∃ t, exec i s = .next t ∧ t.buf = s.buf ∧ t.fq = s.fq ∧
      exec i { s with buf := buf, fq := fq } = .next { t with buf := buf, fq := fq }

/-- FEED reads and writes `BUF` and nothing else of the block (R130): another `FQ`, other pending words and other
transmit results make no difference to it and stay as they are, but for the frames it adds to the FRAME channel. -/
def Obligations.FeedReadsTheBufferOnly : Prop :=
  ∀ (i : Instr) (s t : State) (fq : List Frame) (q : Ports) (rs : List TxResult) (bs : List TxBeat),
    isFeed i = true → exec i s = .next t → ∃ fs : List Frame, t.out.frames = s.out.frames ++ fs ∧
      exec i { s with fq := fq, ports := q, out := { s.out with txResults := rs, txBytes := bs } } =
        .next { t with
          fq := fq, ports := { q with frames := q.frames ++ fs }, out := { t.out with txResults := rs, txBytes := bs } }

/-- An operation of the transmit path and one of the receive path can change places without changing any result, also
where the second is refused (20_memory.md section 5, the spec's own inference). -/
def Obligations.TransmitAndReceiveCommute : Prop :=
  ∀ (i j : Instr) (s : State), isTransmit i = true → isReceive j = true →
    execAll [i, j] s = execAll [j, i] s

/-- R185: `OutOfRange` is answered by ENCODE_POSITION only, when the violation list is not empty, with that list and
its mask; nothing is transmitted and no state changes. -/
def Obligations.OnlyEncodePositionAnswersOutOfRange : Prop :=
  ∀ s : State,
    (∀ (i : Instr) (t : State) (v : List PosField), exec i s = .next t →
      t.out.txResults = s.out.txResults ++ [.outOfRange v] →
      ∃ (cmd : Byte) (x z : Word32) (grip : Byte), i = .encodePosition cmd x z grip ∧ v ≠ [] ∧
        v = positionViolations s.cfg x z grip ∧
        t = { s with out := { s.out with txResults := s.out.txResults ++ [.outOfRange v] } }) ∧
    (∀ (cmd : Byte) (x z : Word32) (grip : Byte) (v : List PosField), v = positionViolations s.cfg x z grip → v ≠ [] →
      exec (.encodePosition cmd x z grip) s =
          .next { s with out := { s.out with txResults := s.out.txResults ++ [.outOfRange v] } } ∧
        (TxResult.outOfRange v).mask = violationMask v ∧ violationMask v ≠ 0)

/-- R186: `InvalidPayload` is answered by ENCODE only, when the payload has more than 255 bytes, with its length;
nothing is transmitted and no state changes. -/
def Obligations.OnlyEncodeAnswersInvalidPayload : Prop :=
  ∀ s : State,
    (∀ (i : Instr) (t : State) (n : Nat), exec i s = .next t →
      t.out.txResults = s.out.txResults ++ [.invalidPayload n] →
      ∃ (cmd : Byte) (payload : List Byte), i = .encode cmd payload ∧ n = payload.length ∧ 255 < n ∧
        t = { s with out := { s.out with txResults := s.out.txResults ++ [.invalidPayload n] } }) ∧
    (∀ (cmd : Byte) (payload : List Byte), 255 < payload.length →
      exec (.encode cmd payload) s =
        .next { s with out := { s.out with txResults := s.out.txResults ++ [.invalidPayload payload.length] } })
end

