-- ==== Sys2Proof/Laws/State.lean ====
section
/-! SUPPORT. One lemma for each field and each update of the state, so that no proof unfolds a record update. -/

namespace Sys2Proof.Machine

variable (s : State)

/-! ## enqueue -/

@[simp] theorem State.enqueue_buf (f : Frame) : (s.enqueue f).buf = s.buf := rfl
@[simp] theorem State.enqueue_fq (f : Frame) : (s.enqueue f).fq = s.fq ++ [f] := rfl
@[simp] theorem State.enqueue_cfg (f : Frame) : (s.enqueue f).cfg = s.cfg := rfl
@[simp] theorem State.enqueue_ports (f : Frame) : (s.enqueue f).ports = s.ports := rfl
@[simp] theorem State.enqueue_out (f : Frame) : (s.enqueue f).out = s.out := rfl

/-! ## reply -/

@[simp] theorem State.reply_buf (r : TxResult) : (s.reply r).buf = s.buf := rfl
@[simp] theorem State.reply_fq (r : TxResult) : (s.reply r).fq = s.fq := rfl
@[simp] theorem State.reply_cfg (r : TxResult) : (s.reply r).cfg = s.cfg := rfl
@[simp] theorem State.reply_ports (r : TxResult) : (s.reply r).ports = s.ports := rfl
@[simp] theorem State.reply_out (r : TxResult) : (s.reply r).out = { s.out with txResults := s.out.txResults ++ [r] } := rfl

/-! ## fail -/

@[simp] theorem State.fail_buf (r : TxResult) : (s.fail r).buf = s.buf := rfl
@[simp] theorem State.fail_fq (r : TxResult) : (s.fail r).fq = s.fq := rfl
@[simp] theorem State.fail_cfg (r : TxResult) : (s.fail r).cfg = s.cfg := rfl
@[simp] theorem State.fail_ports (r : TxResult) : (s.fail r).ports = s.ports := rfl
@[simp] theorem State.fail_out (r : TxResult) : (s.fail r).out = { s.out with txResults := s.out.txResults ++ [r] } := rfl

/-! ## transmit -/

@[simp] theorem State.transmit_buf (bytes : List Byte) : (s.transmit bytes).buf = s.buf := rfl
@[simp] theorem State.transmit_fq (bytes : List Byte) : (s.transmit bytes).fq = s.fq := rfl
@[simp] theorem State.transmit_cfg (bytes : List Byte) : (s.transmit bytes).cfg = s.cfg := rfl
@[simp] theorem State.transmit_ports (bytes : List Byte) : (s.transmit bytes).ports = s.ports := rfl
@[simp] theorem State.transmit_out (bytes : List Byte) : (s.transmit bytes).out = { s.out with txBytes := s.out.txBytes ++ frameBeats bytes } := rfl

/-! ## answerPop -/

@[simp] theorem State.answerPop_buf (r : Option Frame) : (s.answerPop r).buf = s.buf := rfl
@[simp] theorem State.answerPop_fq (r : Option Frame) : (s.answerPop r).fq = s.fq := rfl
@[simp] theorem State.answerPop_cfg (r : Option Frame) : (s.answerPop r).cfg = s.cfg := rfl
@[simp] theorem State.answerPop_ports (r : Option Frame) : (s.answerPop r).ports = s.ports := rfl
@[simp] theorem State.answerPop_out (r : Option Frame) : (s.answerPop r).out = { s.out with pops := s.out.pops ++ [r] } := rfl

/-! ## answerPack -/

@[simp] theorem State.answerPack_buf (r : List Byte) : (s.answerPack r).buf = s.buf := rfl
@[simp] theorem State.answerPack_fq (r : List Byte) : (s.answerPack r).fq = s.fq := rfl
@[simp] theorem State.answerPack_cfg (r : List Byte) : (s.answerPack r).cfg = s.cfg := rfl
@[simp] theorem State.answerPack_ports (r : List Byte) : (s.answerPack r).ports = s.ports := rfl
@[simp] theorem State.answerPack_out (r : List Byte) : (s.answerPack r).out = { s.out with packed := s.out.packed ++ [r] } := rfl

/-! ## answerUnpack -/

@[simp] theorem State.answerUnpack_buf (r : Option Position) : (s.answerUnpack r).buf = s.buf := rfl
@[simp] theorem State.answerUnpack_fq (r : Option Position) : (s.answerUnpack r).fq = s.fq := rfl
@[simp] theorem State.answerUnpack_cfg (r : Option Position) : (s.answerUnpack r).cfg = s.cfg := rfl
@[simp] theorem State.answerUnpack_ports (r : Option Position) : (s.answerUnpack r).ports = s.ports := rfl
@[simp] theorem State.answerUnpack_out (r : Option Position) : (s.answerUnpack r).out = { s.out with unpacked := s.out.unpacked ++ [r] } := rfl

/-! ## commitFeed -/

@[simp] theorem State.commitFeed_buf (r : FeedResult) : (s.commitFeed r).buf = r.buf := rfl
@[simp] theorem State.commitFeed_fq (r : FeedResult) : (s.commitFeed r).fq = s.fq := rfl
@[simp] theorem State.commitFeed_cfg (r : FeedResult) : (s.commitFeed r).cfg = s.cfg := rfl
@[simp] theorem State.commitFeed_ports (r : FeedResult) :
    (s.commitFeed r).ports = { s.ports with frames := s.ports.frames ++ r.frames } := rfl
@[simp] theorem State.commitFeed_out (r : FeedResult) : (s.commitFeed r).out =
      { s.out with
        frames := s.out.frames ++ r.frames
        diags := s.out.diags ++ r.diags
        status := s.out.status ++ [r.stop] } := rfl

/-! ## emit -/

@[simp] theorem State.emit_buf (fs : List Frame) : (s.emit fs).buf = s.buf := rfl
@[simp] theorem State.emit_fq (fs : List Frame) : (s.emit fs).fq = s.fq := rfl
@[simp] theorem State.emit_cfg (fs : List Frame) : (s.emit fs).cfg = s.cfg := rfl
@[simp] theorem State.emit_ports (fs : List Frame) :
    (s.emit fs).ports = { s.ports with frames := s.ports.frames ++ fs } := rfl
@[simp] theorem State.emit_out (fs : List Frame) : (s.emit fs).out = { s.out with frames := s.out.frames ++ fs } := rfl
@[simp] theorem State.emit_nil : s.emit [] = s := by simp [State.emit]

/-! ## handOver -/

@[simp] theorem State.handOver_buf : s.handOver.buf = s.buf := rfl
@[simp] theorem State.handOver_fq : s.handOver.fq = s.fq ++ s.ports.frames := rfl
@[simp] theorem State.handOver_cfg : s.handOver.cfg = s.cfg := rfl
@[simp] theorem State.handOver_ports : s.handOver.ports = { s.ports with frames := [] } := rfl
@[simp] theorem State.handOver_out : s.handOver.out = s.out := rfl

/-! ## restart -/

@[simp] theorem State.restart_buf : s.restart.buf = [] := rfl
@[simp] theorem State.restart_fq : s.restart.fq = [] := rfl
@[simp] theorem State.restart_cfg : s.restart.cfg = s.cfg := rfl
@[simp] theorem State.restart_ports : s.restart.ports = { s.ports with frames := [] } := rfl
@[simp] theorem State.restart_out : s.restart.out = s.out := rfl
@[simp] theorem State.restart_restart : s.restart.restart = s.restart := rfl
@[simp] theorem State.restart_handOver : s.handOver.restart = s.restart := rfl

/-! ## offered -/

@[simp] theorem State.offered_buf (words : Ports) : (s.offered words).buf = s.buf := rfl
@[simp] theorem State.offered_fq (words : Ports) : (s.offered words).fq = s.fq := rfl
@[simp] theorem State.offered_cfg (words : Ports) : (s.offered words).cfg = s.cfg := rfl
@[simp] theorem State.offered_ports (words : Ports) : (s.offered words).ports = words.offer s.ports := rfl
@[simp] theorem State.offered_out (words : Ports) : (s.offered words).out = s.out := rfl

/-! ## dequeue -/

@[simp] theorem State.dequeue_of_nil (h : s.fq = []) : s.dequeue = (none, s) := by
  unfold State.dequeue; rw [h]

@[simp] theorem State.dequeue_of_cons (f : Frame) (rest : List Frame) (h : s.fq = f :: rest) :
    s.dequeue = (some f, { s with fq := rest }) := by
  unfold State.dequeue; rw [h]

@[simp] theorem State.dequeue_buf : s.dequeue.2.buf = s.buf := by unfold State.dequeue; split <;> rfl
@[simp] theorem State.dequeue_cfg : s.dequeue.2.cfg = s.cfg := by unfold State.dequeue; split <;> rfl
@[simp] theorem State.dequeue_ports : s.dequeue.2.ports = s.ports := by unfold State.dequeue; split <;> rfl
@[simp] theorem State.dequeue_out : s.dequeue.2.out = s.out := by unfold State.dequeue; split <;> rfl
@[simp] theorem State.dequeue_fq : s.dequeue.2.fq = s.fq.tail := by
  unfold State.dequeue; split <;> rename_i h <;> simp [h]
@[simp] theorem State.dequeue_result : s.dequeue.1 = s.fq.head? := by
  unfold State.dequeue; split <;> rename_i h <;> simp [h]

/-! ## reset -/

@[simp] theorem State.reset_buf : State.reset.buf = [] := rfl
@[simp] theorem State.reset_fq : State.reset.fq = [] := rfl
@[simp] theorem State.reset_cfg : State.reset.cfg = Config.builtIn := rfl
@[simp] theorem State.reset_ports : State.reset.ports = Ports.empty := rfl
@[simp] theorem State.reset_out : State.reset.out = Outputs.empty := rfl

end Sys2Proof.Machine
end

