-- ==== Sys2Proof/Laws/Ops.lean ====
section
/-! SUPPORT. What the shared operations do, said once: the header search, the FEED loop, the capacity test. -/

namespace Sys2Proof.Machine

/-! ## Limits (R7) -/

@[simp] theorem within_none (n : Nat) : within n none = true := rfl
@[simp] theorem within_some (n limit : Nat) : within n (some limit) = true ↔ n ≤ limit := by simp [within]

theorem within_mono {m n : Nat} (limit : Option Nat) (h : m ≤ n) (hn : within n limit = true) :
    within m limit = true := by
  cases limit with
  | none => rfl
  | some l => rw [within_some] at *; omega

theorem accepts_unbounded (s : State) (chunk : List Byte) (h1 : s.cfg.maxChunk = none) (h2 : s.cfg.bufCap = none) :
    s.accepts chunk = true := by
  simp [State.accepts, h1, h2]

/-! ## The header search (R9, R132) -/

theorem find_cons (a : Byte) (t m : List Byte) :
    find (a :: t) m = if (a :: t).take m.length = m then some 0 else (find t m).map (· + 1) := by
  rw [find]

theorem find_nil (m : List Byte) : find [] m = if m = [] then some 0 else none := by
  rw [find]; cases m <;> simp

/-- A found offset: the marker stands there. -/
theorem find_some_take {s m : List Byte} {i : Nat} (h : find s m = some i) : (s.drop i).take m.length = m := by
  induction s generalizing i with
  | nil =>
    rw [find_nil] at h
    split at h
    · simp_all
    · simp at h
  | cons a t ih =>
    rw [find_cons] at h
    split at h
    · rename_i hm
      obtain rfl : i = 0 := by simpa using h.symm
      simpa using hm
    · simp only [Option.map_eq_some_iff] at h
      obtain ⟨j, hj, rfl⟩ := h
      simpa using ih hj

/-- A found offset is the least: the marker stands at none before it. -/
theorem find_some_least {s m : List Byte} {i : Nat} (h : find s m = some i) :
    ∀ j < i, (s.drop j).take m.length ≠ m := by
  induction s generalizing i with
  | nil =>
    rw [find_nil] at h
    split at h
    · obtain rfl : i = 0 := by simpa using h.symm
      simp
    · simp at h
  | cons a t ih =>
    rw [find_cons] at h
    split at h
    · obtain rfl : i = 0 := by simpa using h.symm
      simp
    · rename_i hm
      simp only [Option.map_eq_some_iff] at h
      obtain ⟨k, hk, rfl⟩ := h
      intro j hj
      cases j with
      | zero => simpa using hm
      | succ j => simpa using ih hk j (by omega)

/-- `NONE`: the marker stands nowhere. -/
theorem find_none {s m : List Byte} (h : find s m = none) : ∀ j ≤ s.length, (s.drop j).take m.length ≠ m := by
  induction s with
  | nil =>
    rw [find_nil] at h
    split at h
    · simp at h
    · rename_i hm
      intro j _
      simpa using fun h => hm h
  | cons a t ih =>
    rw [find_cons] at h
    split at h
    · simp at h
    · rename_i hm
      simp only [Option.map_eq_none_iff] at h
      intro j hj
      cases j with
      | zero => simpa using hm
      | succ j => simpa using ih h j (by simpa using hj)

/-- A string that begins with the marker is found at 0. -/
theorem find_eq_zero {s m : List Byte} (h : s.take m.length = m) : find s m = some 0 := by
  cases s with
  | nil => rw [find_nil]; simp_all
  | cons a t => rw [find_cons, if_pos h]

theorem header_length : header.length = 2 := rfl

/-- After step 2 the header is at offset 0 (R133). -/
theorem find_header_drop {b : List Byte} {i : Nat} (h : find b header = some i) :
    (b.drop i).take 2 = header :=
  find_some_take h

theorem find_header_drop_zero {b : List Byte} {i : Nat} (h : find b header = some i) :
    find (b.drop i) header = some 0 :=
  find_eq_zero (find_some_take h)

/-! ## The header search in terms of the bytes (R132) -/

theorem headerAt_iff (b : List Byte) (j : Nat) : HeaderAt b j ↔ (b.drop j).take header.length = header := by
  simp only [HeaderAt, header]
  constructor
  · rintro ⟨h1, h2⟩
    obtain ⟨hj, h1⟩ := List.getElem?_eq_some_iff.mp h1
    obtain ⟨hj2, h2⟩ := List.getElem?_eq_some_iff.mp h2
    rw [List.drop_eq_getElem_cons hj, List.drop_eq_getElem_cons hj2, h1, h2]; rfl
  · intro h
    have e1 : (b.drop j)[0]? = some 0x44 := by
      have := congrArg (fun l => l[0]?) h; simpa [List.getElem?_take] using this
    have e2 : (b.drop j)[1]? = some 0x58 := by
      have := congrArg (fun l => l[1]?) h; simpa [List.getElem?_take] using this
    simp only [List.getElem?_drop] at e1 e2
    exact ⟨e1, e2⟩

/-- The search fails exactly when no header stands anywhere. -/
theorem find_none_iff (b : List Byte) : find b header = none ↔ ∀ j, ¬ HeaderAt b j := by
  constructor
  · intro h j hj
    rw [headerAt_iff] at hj
    by_cases hjl : j ≤ b.length
    · exact find_none h j hjl hj
    · rw [List.drop_eq_nil_of_le (by omega)] at hj; simp [header] at hj
  · intro h
    cases hf : find b header with
    | none => rfl
    | some i => exact absurd ((headerAt_iff b i).mpr (find_some_take hf)) (h i)

/-- The search finds exactly the least offset at which a header stands. -/
theorem find_some_iff (b : List Byte) (i : Nat) :
    find b header = some i ↔ HeaderAt b i ∧ ∀ j < i, ¬ HeaderAt b j := by
  constructor
  · intro h
    exact ⟨(headerAt_iff b i).mpr (find_some_take h),
      fun j hj hh => find_some_least h j hj ((headerAt_iff b j).mp hh)⟩
  · rintro ⟨h1, h2⟩
    cases hf : find b header with
    | none => exact absurd h1 ((find_none_iff b).mp hf i)
    | some k =>
      have hk1 := (headerAt_iff b k).mpr (find_some_take hf)
      have hk2 := fun j hj hh => find_some_least hf j hj ((headerAt_iff b j).mp hh)
      rcases Nat.lt_trichotomy i k with h | h | h
      · exact absurd h1 (hk2 i h)
      · rw [h]
      · exact absurd hk1 (h2 k h)

/-! ## Sums and frames -/

theorem sum8_toNat (l : List Byte) : (sum8 l).toNat = (l.map BitVec.toNat).sum % 256 := by
  simp [sum8]

theorem buildFrame_eq (cmd : Byte) (payload : List Byte) :
    buildFrame cmd payload =
      wireBytes cmd payload (sum8 ([cmd, BitVec.ofNat 8 payload.length] ++ payload)) 0x58 0x44 := by
  simp [buildFrame, wireBytes, header, footer]

theorem wireBytes_length (cmd : Byte) (payload : List Byte) (cs f0 f1 : Byte) :
    (wireBytes cmd payload cs f0 f1).length = 7 + payload.length := by
  simp [wireBytes, header]; omega

/-! ## The FEED loop (R130) -/

theorem minFrame_le_totalLen (b : List Byte) : 7 ≤ totalLen b := Nat.le_add_right _ _

theorem totalLen_le (b : List Byte) : totalLen b ≤ 262 := by
  have := (b.getD 3 0).isLt
  simp only [totalLen, minFrame]; omega

/-- One pass of the loop, for any fuel that is left. -/
theorem feedLoop_succ (th n : Nat) (buf : List Byte) :
    feedLoop th (n + 1) buf =
      match find buf header with
      | none => noHeader th buf
      | some i =>
          let b := bufDrop buf i
          let r :=
            if b.length < minFrame then ⟨b, [], [], .partialMin⟩
            else if b.length < totalLen b then ⟨b, [], [], .partialLen⟩
            else settle (memRead b 0 (totalLen b)) (feedLoop th n (bufDrop b (totalLen b)))
          { r with diags := trimEvents buf i ++ r.diags } := rfl

/-- More fuel than passes changes nothing (R144): the loop never runs out of it. -/
theorem feedLoop_fuel (th : Nat) (buf : List Byte) :
    ∀ m n, buf.length / 7 < m → buf.length / 7 < n → feedLoop th m buf = feedLoop th n buf := by
  induction hlen : buf.length using Nat.strong_induction_on generalizing buf with
  | _ len ih =>
    intro m n hm hn
    obtain ⟨m, rfl⟩ : ∃ k, m = k + 1 := ⟨m - 1, by omega⟩
    obtain ⟨n, rfl⟩ : ∃ k, n = k + 1 := ⟨n - 1, by omega⟩
    rw [feedLoop_succ, feedLoop_succ]
    cases hf : find buf header with
    | none => rfl
    | some i =>
      simp only
      by_cases h1 : (bufDrop buf i).length < minFrame
      · simp [h1]
      · by_cases h2 : (bufDrop buf i).length < totalLen (bufDrop buf i)
        · simp [h1, h2]
        · have h7 := minFrame_le_totalLen (bufDrop buf i)
          have hl : (bufDrop (bufDrop buf i) (totalLen (bufDrop buf i))).length + 7 ≤ len := by
            simp only [bufDrop, List.length_drop] at *; omega
          have : feedLoop th m (bufDrop (bufDrop buf i) (totalLen (bufDrop buf i))) =
              feedLoop th n (bufDrop (bufDrop buf i) (totalLen (bufDrop buf i))) :=
            ih _ (by omega) _ rfl m n (by omega) (by omega)
          simp [h1, h2, this]

/-- FEED of a chunk is FEED of nothing on the buffer with the chunk appended (R131). -/
theorem feed_append (th : Nat) (buf chunk : List Byte) : feed th buf chunk = feed th (buf ++ chunk) [] := by
  simp [feed, bufAppend]

/-- Step 1 without a header (R132). -/
theorem feed_noHeader {th : Nat} {b : List Byte} (h : find b header = none) : feed th b [] = noHeader th b := by
  simp [feed, bufAppend, feedLoop_succ, h]

/-- Step 2 (R133): the bytes before the header are trimmed, and the FEED goes on without them. -/
theorem feed_trim {th : Nat} {b : List Byte} {i : Nat} (h : find b header = some i) :
    feed th b [] =
      { feed th (b.drop i) [] with diags := trimEvents b i ++ (feed th (b.drop i) []).diags } := by
  have h0 := find_header_drop_zero h
  simp only [feed, bufAppend, List.append_nil]
  rw [feedLoop_succ, feedLoop_succ, h, h0]
  simp only [bufDrop, List.drop_zero, trimEvents, Nat.lt_irrefl, if_false, List.nil_append]
  by_cases h1 : (b.drop i).length < minFrame
  · simp only [h1, if_true]
  · by_cases h2 : (b.drop i).length < totalLen (b.drop i)
    · simp only [h1, h2, if_true, if_false]
    · simp only [h1, h2, if_false]
      have h7 := minFrame_le_totalLen (b.drop i)
      rw [feedLoop_fuel th ((b.drop i).drop (totalLen (b.drop i))) (b.length / minFrame)
        ((b.drop i).length / minFrame)]
      · simp only [List.length_drop, minFrame] at *; omega
      · simp only [List.length_drop, minFrame] at *; omega

/-- Step 3 (R134). -/
theorem feed_partialMin {th : Nat} {b : List Byte} (h : find b header = some 0) (h1 : b.length < 7) :
    feed th b [] = ⟨b, [], [], .partialMin⟩ := by
  simp [feed, bufAppend, feedLoop_succ, h, bufDrop, minFrame, h1, trimEvents]

/-- Step 4 (R135). -/
theorem feed_partialLen {th : Nat} {b : List Byte} (h : find b header = some 0) (h1 : 7 ≤ b.length)
    (h2 : b.length < totalLen b) : feed th b [] = ⟨b, [], [], .partialLen⟩ := by
  have h1' : ¬ b.length < 7 := by omega
  simp [feed, bufAppend, feedLoop_succ, h, bufDrop, minFrame, h1', h2, trimEvents]

/-- Steps 5 to 8 (R136 to R140): a candidate is sliced and settled, and the FEED goes on with what follows it. -/
theorem feed_candidate {th : Nat} {b : List Byte} (h : find b header = some 0) (h2 : totalLen b ≤ b.length) :
    feed th b [] = settle (b.take (totalLen b)) (feed th (b.drop (totalLen b)) []) := by
  have h7 := minFrame_le_totalLen b
  have h1' : ¬ b.length < 7 := by omega
  have h2' : ¬ b.length < totalLen b := by omega
  simp only [feed, bufAppend, List.append_nil]
  rw [feedLoop_succ, h]
  simp only [bufDrop, List.drop_zero, minFrame, h1', h2', if_false, trimEvents, Nat.lt_irrefl, List.nil_append,
    memRead]
  rw [feedLoop_fuel th (b.drop (totalLen b)) (b.length / 7) ((b.drop (totalLen b)).length / 7 + 1)]
  · simp only [List.length_drop]; omega
  · simp only [List.length_drop]; omega

/-- Induction along a FEED: to show a property of a buffer and what FEED makes of it, show it for each way step 1 to 4
can end the FEED, and for a trim and a candidate assuming it of what remains. -/
theorem feed_induction {th : Nat} {P : List Byte → FeedResult → Prop}
    (noHeader : ∀ b, find b header = none → P b (noHeader th b))
    (trim : ∀ b i r, find b header = some i → 0 < i → P (b.drop i) r →
      P b { r with diags := ⟨.garbageTrim, b.take i⟩ :: r.diags })
    (partialMin : ∀ b, find b header = some 0 → b.length < 7 → P b ⟨b, [], [], .partialMin⟩)
    (partialLen : ∀ b, find b header = some 0 → 7 ≤ b.length → b.length < totalLen b →
      P b ⟨b, [], [], .partialLen⟩)
    (candidate : ∀ b r, find b header = some 0 → totalLen b ≤ b.length → P (b.drop (totalLen b)) r →
      P b (settle (b.take (totalLen b)) r))
    (b : List Byte) : P b (feed th b []) := by
  have aligned : ∀ b, (∀ b' : List Byte, b'.length < b.length → P b' (feed th b' [])) →
      find b header = some 0 → P b (feed th b []) := by
    intro b ih h
    by_cases h1 : b.length < 7
    · rw [feed_partialMin h h1]; exact partialMin b h h1
    · by_cases h2 : b.length < totalLen b
      · rw [feed_partialLen h (by omega) h2]; exact partialLen b h (by omega) h2
      · rw [feed_candidate h (by omega)]
        refine candidate b _ h (by omega) (ih _ ?_)
        have := minFrame_le_totalLen b
        simp only [List.length_drop]; omega
  induction hlen : b.length using Nat.strong_induction_on generalizing b with
  | _ len ih =>
    subst hlen
    have ih' : ∀ b' : List Byte, b'.length < b.length → P b' (feed th b' []) := fun b' h => ih _ h b' rfl
    cases hf : find b header with
    | none => rw [feed_noHeader hf]; exact noHeader b hf
    | some i =>
      by_cases hi : i = 0
      · subst hi; exact aligned b ih' hf
      · rw [feed_trim hf]
        have hpos : 0 < i := Nat.pos_of_ne_zero hi
        have : trimEvents b i = [⟨.garbageTrim, b.take i⟩] := by simp [trimEvents, hpos, memRead]
        rw [this]
        refine trim b i _ hf hpos (aligned _ ?_ (find_header_drop_zero hf))
        intro b' hb'
        exact ih' b' (by simp only [List.length_drop] at hb'; omega)

/-- A smaller buffer still accepts the empty chunk. -/
theorem accepts_nil {s : State} {chunk : List Byte} (h : s.accepts chunk = true) (b : List Byte)
    (hb : b.length ≤ s.buf.length + chunk.length) (q : Ports) (o : Outputs) :
    ({ s with buf := b, ports := q, out := o } : State).accepts [] = true := by
  simp only [State.accepts, Bool.and_eq_true] at *
  exact ⟨within_mono _ (by simp) h.1, within_mono _ (by simpa using hb) h.2⟩

/-- A FEED in a state: what it answers, and when (R130, U7). -/
theorem feedState_cases (chunk : List Byte) (s : State) :
    (s.accepts chunk = true ∧
      feedState chunk s = .next (s.commitFeed (feed s.cfg.garbageThreshold s.buf chunk))) ∨
    (s.accepts chunk = false ∧ feedState chunk s = .refused .chunkOverCapacity) := by
  cases h : s.accepts chunk <;> simp [feedState, h]

/-- FEED and the two WIRE rows are the FEED of the bytes they bring. -/
theorem exec_of_isFeed {i : Instr} (s : State) (h : isFeed i = true) : exec i s = feedState (chunkOf i) s := by
  cases i <;> first | rfl | simp [isFeed] at h

end Sys2Proof.Machine
end

