-- ==== Sys2Proof/Laws/Decode.lean ====
section
/-! SUPPORT. The fields of the port words, the streams of beats and the position payload: what is written is read
back. -/

namespace Sys2Proof

@[simp] theorem hasByte_mkBeat (k l : Bool) (d : Byte) : Beat.hasByte (mkBeat k l d) = k := by
  simp only [Beat.hasByte, mkBeat, BitVec.getLsbD_append]; simp

@[simp] theorem last_mkBeat (k l : Bool) (d : Byte) : Beat.last (mkBeat k l d) = l := by
  simp only [Beat.last, mkBeat, BitVec.getLsbD_append]; simp

@[simp] theorem byte_mkBeat (k l : Bool) (d : Byte) : Beat.byte (mkBeat k l d) = d := by
  simp only [Beat.byte, mkBeat]
  apply BitVec.eq_of_getLsbD_eq
  intro i hi
  have h1 : i < 1 + 8 := by omega
  simp only [BitVec.getLsbD_extractLsb', BitVec.getLsbD_append, hi, h1, Nat.zero_add, if_true, decide_true,
    Bool.true_and]

@[simp] theorem bytes_mkBeat (k l : Bool) (d : Byte) : Beat.bytes (mkBeat k l d) = if k then [d] else [] := by
  simp [Beat.bytes]

@[simp] theorem select_mkCmd (select : BitVec 2) (cmd : Byte) : CmdWord.select (mkCmd select cmd) = select := by
  simp only [CmdWord.select, mkCmd]
  apply BitVec.eq_of_getLsbD_eq
  intro i hi
  simp only [BitVec.getLsbD_extractLsb', BitVec.getLsbD_append, hi]
  simp

@[simp] theorem cmd_mkCmd (select : BitVec 2) (cmd : Byte) : CmdWord.cmd (mkCmd select cmd) = cmd := by
  simp only [CmdWord.cmd, mkCmd]
  apply BitVec.eq_of_getLsbD_eq
  intro i hi
  simp only [BitVec.getLsbD_extractLsb', BitVec.getLsbD_append, hi, Nat.zero_add, if_true, decide_true,
    Bool.true_and]

@[simp] theorem x_mkOperand (x z : Word32) (g : Byte) : OperandWord.x (mkOperand x z g) = x := by
  simp only [OperandWord.x, mkOperand]
  apply BitVec.eq_of_getLsbD_eq
  intro i hi
  have h1 : ¬ 40 + i < 32 + 8 := by omega
  have h2 : 40 + i - (32 + 8) = i := by omega
  simp only [BitVec.getLsbD_extractLsb', BitVec.getLsbD_append, hi, h1, h2, if_false, decide_true, Bool.true_and]

@[simp] theorem z_mkOperand (x z : Word32) (g : Byte) : OperandWord.z (mkOperand x z g) = z := by
  simp only [OperandWord.z, mkOperand]
  apply BitVec.eq_of_getLsbD_eq
  intro i hi
  have h1 : 8 + i < 32 + 8 := by omega
  have h2 : ¬ 8 + i < 8 := by omega
  have h3 : 8 + i - 8 = i := by omega
  simp only [BitVec.getLsbD_extractLsb', BitVec.getLsbD_append, hi, h1, h2, h3, if_true, if_false, decide_true,
    Bool.true_and]

@[simp] theorem grip_mkOperand (x z : Word32) (g : Byte) : OperandWord.grip (mkOperand x z g) = g := by
  simp only [OperandWord.grip, mkOperand]
  apply BitVec.eq_of_getLsbD_eq
  intro i hi
  have h1 : i < 32 + 8 := by omega
  simp only [BitVec.getLsbD_extractLsb', BitVec.getLsbD_append, hi, h1, Nat.zero_add, if_true, decide_true,
    Bool.true_and]

/-- A closed stream is read back whole, and what follows it is left alone (R75). -/
theorem decodeStream_encodeStream (bytes : List Byte) (rest : List Beat) :
    decodeStream (encodeStream bytes ++ rest) = some (bytes, rest) := by
  induction bytes with
  | nil => simp [encodeStream, decodeStream]
  | cons d ds ih =>
    cases ds with
    | nil => simp [encodeStream, decodeStream]
    | cons d' ds =>
      rw [encodeStream, List.cons_append, decodeStream]
      simp [ih]

theorem encodeStream_ne_nil (bytes : List Byte) : encodeStream bytes ≠ [] := by
  cases bytes with
  | nil => simp [encodeStream]
  | cons d ds => cases ds <;> simp [encodeStream]

/-! ## Which port is served next (R174) -/

theorem nextPort_idle {q : Ports} (h : q.turns = []) (hf : q.frames = []) : nextPort q = none := by
  simp [nextPort, h, hf]

/-- A turn that does not bring bytes is taken as it comes, and any turn when no frame waits to be pushed. -/
theorem nextPort_turn {q : Ports} {p : Port} {ps : List Port} (h : q.turns = p :: ps)
    (hf : p.bringsBytes = false ∨ q.frames = []) : nextPort q = some (p, { q with turns := ps }) := by
  rcases hf with hf | hf <;> simp [nextPort, h, hf]

/-- A frame that waits is pushed before bytes are brought, and when no turn is left. -/
theorem nextPort_push {q : Ports} {f : Frame} {rest : List Frame} (hf : q.frames = f :: rest)
    (h : q.turns = [] ∨ ∃ p ps, q.turns = p :: ps ∧ p.bringsBytes = true) : nextPort q = some (.push, q) := by
  rcases h with h | ⟨p, ps, h, hp⟩
  · simp [nextPort, h, hf]
  · simp [nextPort, h, hf, hp]

theorem decodePush_cons {q : Ports} {f : Frame} {rest : List Frame} (hf : q.frames = f :: rest) (hw : f.wf = true) :
    decodePush q = .ok (.push f, { q with frames := rest }) := by
  simp [decodePush, hf, hw]

/-- `unle32` is the inverse of `le32` (R9). -/
theorem unle32_le32 (w : Word32) :
    unle32 (w.extractLsb' 0 8) (w.extractLsb' 8 8) (w.extractLsb' 16 8) (w.extractLsb' 24 8) = w := by
  apply BitVec.eq_of_toNat_eq
  have := w.isLt
  simp only [unle32, BitVec.extractLsb'_toNat, BitVec.toNat_ofNat, Nat.shiftRight_eq_div_pow]
  omega

theorem positionPayload_length (x z : Word32) (g : Byte) : (positionPayload x z g).length = 9 := rfl

theorem positionFields_positionPayload (x z : Word32) (g : Byte) :
    positionFields (positionPayload x z g) = some (x, z, g) := by
  simp only [positionPayload, le32, List.cons_append, List.nil_append, positionFields, unle32_le32]

theorem positionFields_isSome_iff (payload : List Byte) :
    (positionFields payload).isSome = true ↔ payload.length = 9 := by
  constructor
  · intro h
    unfold positionFields at h
    split at h
    · rfl
    · simp at h
  · intro h
    match payload, h with
    | [_, _, _, _, _, _, _, _, _], _ => rfl

end Sys2Proof

namespace Sys2Proof.Machine

theorem nextPort_frames {q pending : Ports} {p : Port} (h : nextPort q = some (p, pending)) :
    pending.frames = q.frames := by
  revert h
  unfold nextPort
  repeat' split
  all_goals simp
  all_goals rintro rfl rfl; rfl

@[simp] theorem afterReject_frames (r : Reject) (p : Port) (q : Ports) : (afterReject r p q).frames = q.frames := by
  cases r <;> cases p <;> rfl

/-- What a step that completes does: it runs the instruction decoded at the port served next, or there is none and
nothing but pending words changes. -/
theorem step_cases {s t : State} (h : step s = .next t) :
    (∃ (p : Port) (pending q : Ports) (i : Instr), nextPort s.ports = some (p, pending) ∧
      decode p pending = .ok (i, q) ∧ exec i { s with ports := q } = .next t) ∨
    (∃ q : Ports, t = { s with ports := q } ∧ q.frames = s.ports.frames) := by
  unfold step at h
  split at h
  · cases h; exact .inr ⟨_, rfl, rfl⟩
  · rename_i p pending hp
    split at h
    · rename_i i q hd; exact .inl ⟨p, pending, q, i, hp, hd, h⟩
    · rename_i r hr
      have hf := nextPort_frames hp
      cases r <;> simp only [noInstruction] at h <;> cases h <;>
        exact .inr ⟨_, rfl, by rw [afterReject_frames, hf]⟩

end Sys2Proof.Machine
end

