-- ==== Sys2Proof/Laws/PerInstr.lean ====
section
/-! SUPPORT. Facts about each instruction as syntax, one lemma a constructor. -/

namespace Sys2Proof.Laws.OwnPort

/-- An instruction's words stand on its own port only: every queue that belongs to another port is empty, and the one
turn is its own port's (R75, R76). -/
def Statement (i : Instr) : Prop :=
  (encode i).turns = [portOf i] ∧
    (portOf i ≠ .link → (encode i).link = []) ∧
    (portOf i ≠ .rx → (encode i).rxBeats = []) ∧
    (portOf i ≠ .tx → (encode i).txCmd = [] ∧ (encode i).txStream = [] ∧ (encode i).txOperand = []) ∧
    (portOf i ≠ .pop → (encode i).popStrobe = []) ∧
    (portOf i ≠ .reset → (encode i).resetInput = []) ∧
    (portOf i ≠ .push → (encode i).frames = []) ∧
    (portOf i ≠ .direct → (encode i).direct = [])

theorem frame (cmd : Byte) (payload : List Byte) (checksum footer0 footer1 : Byte) :
    Statement (.frame cmd payload checksum footer0 footer1) := by
  simp [Statement, encode, wordsOf, portOf, Ports.empty]
theorem framePos (cmd : Byte) (x z : Word32) (grip checksum : Byte) :
    Statement (.framePos cmd x z grip checksum) := by
  simp [Statement, encode, wordsOf, portOf, Ports.empty]
theorem feed (chunk : List Byte) : Statement (.feed chunk) := by
  simp [Statement, encode, wordsOf, portOf, Ports.empty]
theorem encode (cmd : Byte) (payload : List Byte) : Statement (.encode cmd payload) := by
  simp [Statement, Sys2Proof.encode, wordsOf, portOf, Ports.empty]
theorem encodePosition (cmd : Byte) (x z : Word32) (grip : Byte) : Statement (.encodePosition cmd x z grip) := by
  simp [Statement, Sys2Proof.encode, wordsOf, portOf, Ports.empty]
theorem csum (bytes : List Byte) : Statement (.csum bytes) := by
  simp [Statement, Sys2Proof.encode, wordsOf, portOf, Ports.empty]
theorem validatePosition (x z : Word32) (grip : Byte) : Statement (.validatePosition x z grip) := by
  simp [Statement, Sys2Proof.encode, wordsOf, portOf, Ports.empty]
theorem tryPop : Statement .tryPop := by
  simp [Statement, Sys2Proof.encode, wordsOf, portOf, Ports.empty]
theorem reset : Statement .reset := by
  simp [Statement, Sys2Proof.encode, wordsOf, portOf, Ports.empty]
theorem push (f : Frame) : Statement (.push f) := by
  simp [Statement, Sys2Proof.encode, wordsOf, portOf, Ports.empty]
theorem packPosition (x z : Word32) (grip : Byte) : Statement (.packPosition x z grip) := by
  simp [Statement, Sys2Proof.encode, wordsOf, portOf, Ports.empty]
theorem unpackPosition (f : Frame) : Statement (.unpackPosition f) := by
  simp [Statement, Sys2Proof.encode, wordsOf, portOf, Ports.empty]

end Sys2Proof.Laws.OwnPort
end

