-- ==== Sys2Proof/Tests/Slice0.lean ====
section
/-! SUPPORT. Tests and witnesses. Expected results are the vectors and programs of spec/95_test_vectors.md (named V<n>,
Program <n>) or words written out from the encodings of 30_encoding.md. -/

namespace Sys2Proof.Tests

open Sys2Proof Sys2Proof.Machine

/-- A component of the next state, if there is one. -/
def seen {α : Type} (f : State → α) : Host.Outcome State Fault Refusal → Option α
  | .next t => some (f t)
  | .fault _ => none
  | .refused _ => none

/-- A small instance: threshold 3, chunks of at most 16 bytes, a buffer of 277 bytes, a queue of one frame. -/
def tiny : State :=
  { State.reset with cfg :=
      { Config.builtIn with garbageThreshold := 3, maxChunk := some 16, bufCap := some 277, fqDepth := some 1 } }

def frameA : Frame := ⟨0x01, 0, []⟩
def frameB : Frame := ⟨0x02, 0, []⟩

/-! ## WellFormed: each check refuses an ill-formed term -/

theorem test_wf_payload_over_255 : Instr.wf (.frame 0 (List.replicate 256 0) 0 0x58 0x44) = false := by
  decide +kernel
theorem test_wf_position_frame_has_its_own_row :
    Instr.wf (.frame 0 [0, 0, 0, 0, 0, 0, 0, 0, 0] 0 0x58 0x44) = false := by decide
theorem test_wf_push_length : Instr.wf (.push ⟨1, 2, [0]⟩) = false := by decide
theorem test_wf_unpack_length : Instr.wf (.unpackPosition ⟨1, 9, [0]⟩) = false := by decide
theorem test_wf_nine_bytes_bad_footer :
    Instr.wf (.frame 0 [0, 0, 0, 0, 0, 0, 0, 0, 0] 0 0x58 0x45) = true := by decide

/-! ## Decoding: words written out from the spec's encodings -/

/-- R60, bytes of V11. -/
theorem test_decode_frame :
    decodeRead [0b01000100, 0b01011000, 0x05, 0b00000010, 0x01, 0x02, 0x0A, 0b01011000, 0b01000100] =
      .frame 0x05 [0x01, 0x02] 0x0A 0x58 0x44 := by decide
/-- R70, bytes of E1. -/
theorem test_decode_framePos :
    decodeRead [0x44, 0x58, 0x01, 0b00001001, 0x00, 0x80, 0x16, 0x43, 0x00, 0x00, 0x96, 0x43, 0x01, 0xBD, 0x58, 0x44] =
      .framePos 0x01 0x43168000 0x43960000 0x01 0xBD := by decide
/-- Program 1 step 3; the beat after the closing one belongs to the next chunk. -/
theorem test_decode_feed :
    decodeStream [0b1001000100, 0b1001011000, 0b1000000001, 0b1000001001, 0b1100000000, 0b1011111111] =
      some ([0x44, 0x58, 0x01, 0x09, 0x00], [0b1011111111]) := by decide
/-- Program 4 step 3. -/
theorem test_decode_encode :
    decodeTx { Ports.empty with txCmd := [0b0000000101], txStream := [0b1000000001, 0b1100000010] } =
      .ok (.encode 0x05 [0x01, 0x02], Ports.empty) := by rfl
/-- Program 4 step 5. -/
theorem test_decode_encodePosition :
    decodeTx { Ports.empty with txCmd := [0b0100000001], txOperand := [0x447A2000BF80000002] } =
      .ok (.encodePosition 0x01 0x447A2000 0xBF800000 0x02, Ports.empty) := by rfl
/-- Program 4 step 2, with the ignored bits set. -/
theorem test_decode_csum :
    decodeTx { Ports.empty with txCmd := [0b1011111111], txStream := [0b0100000000] } =
      .ok (.csum [], Ports.empty) := by rfl
/-- Program 1 step 8, with the ignored bits set. -/
theorem test_decode_validatePosition :
    decodeTx { Ports.empty with txCmd := [0b1110101010], txOperand := [0x431680004396000001] } =
      .ok (.validatePosition 0x43168000 0x43960000 0x01, Ports.empty) := by rfl
theorem test_decode_tryPop :
    decode .pop { Ports.empty with popStrobe := [0b1] } = .ok (.tryPop, Ports.empty) := by rfl
theorem test_decode_reset :
    decode .reset { Ports.empty with resetInput := [0b1] } = .ok (.reset, Ports.empty) := by rfl
theorem test_decode_push :
    decode .push { Ports.empty with frames := [frameA, frameB] } = .ok (.push frameA, { Ports.empty with frames := [frameB] }) := by
  rfl
theorem test_decode_packPosition :
    decodeDirect (.packPosition 0x12345678 0x9ABCDEF0 0x5A) = .ok (.packPosition 0x12345678 0x9ABCDEF0 0x5A) := by rfl
theorem test_decode_unpackPosition : decodeDirect (.unpackPosition frameB) = .ok (.unpackPosition frameB) := by rfl
/-- An operand stream that is not closed waits; a record that is no Frame object is rejected by name. -/
theorem test_decode_rejects :
    decodeTx { Ports.empty with txCmd := [0b0000000101], txStream := [0b1000000001] } = .error .streamOpen ∧
      decodeTx { Ports.empty with txCmd := [0b0100000101] } = .error .operandMissing ∧
      decodeDirect (.unpackPosition ⟨1, 2, [0]⟩) = .error .notAFrameObject ∧
      decode .pop { Ports.empty with popStrobe := [0b0] } = .error .strobeLow := ⟨rfl, rfl, rfl, rfl⟩

/-! ## The encoder writes the same words -/

/-- Program 1 step 3. -/
theorem test_encode_feed :
    (encode (.feed [0x44, 0x58, 0x01, 0x09, 0x00])).rxBeats =
      [0b1001000100, 0b1001011000, 0b1000000001, 0b1000001001, 0b1100000000] := by decide
/-- Program 4 step 5. -/
theorem test_encode_encodePosition :
    encode (.encodePosition 0x01 0x447A2000 0xBF800000 0x02) =
      { Ports.empty with turns := [.tx], txCmd := [0b0100000001], txOperand := [0x447A2000BF80000002] } := by decide
/-- Program 3 step 10: the empty payload is the single beat `0 1`. -/
theorem test_encode_empty_stream : (encode (.encode 0x06 [])).txStream = [0b0100000000] := by decide

/-! ## One operation each -/

/-- V7. -/
theorem test_csum_V7 :
    seen (·.out.txResults) (exec (.csum [0x01, 0x09, 0x00, 0x80, 0x16, 0x43, 0x00, 0x00, 0x96, 0x43, 0x01]) .reset) =
      some [.sum 0xBD] := by decide
/-- V3. -/
theorem test_csum_wraps_V3 : seen (·.out.txResults) (exec (.csum [0xFF, 0x01]) .reset) = some [.sum 0] := by decide
/-- V11; Program 4 step 3: the TX byte beats. -/
theorem test_encode_V11 :
    seen (·.out.txBytes) (exec (.encode 0x05 [0x01, 0x02]) .reset) =
      some [0b001000100, 0b001011000, 0b000000101, 0b000000010, 0b000000001, 0b000000010, 0b000001010, 0b001011000,
        0b101000100] := by decide
/-- V15: 256 bytes are too many. -/
theorem test_encode_V15 :
    seen (fun t => (t.out.txResults, t.out.txBytes)) (exec (.encode 0x01 (List.replicate 256 0)) .reset) =
      some ([.invalidPayload 256], []) := by decide +kernel
/-- V45: `-0.0` is valid and sent as it is. -/
theorem test_encodePosition_V45 :
    seen (·.out.txBytes) (exec (.encodePosition 0x03 0x80000000 0x80000000 0x00) .reset) =
      some (frameBeats [0x44, 0x58, 0x03, 0x09, 0x00, 0x00, 0x00, 0x80, 0x00, 0x00, 0x00, 0x80, 0x00, 0x0C, 0x58, 0x44]) := by
  rfl
/-- V49. -/
theorem test_encodePosition_V49 :
    seen (fun t => (t.out.txResults, t.out.txBytes)) (exec (.encodePosition 0x01 0x7F800000 0xFF800000 0x02) .reset) =
      some ([.outOfRange [.x, .z, .grip]], []) := by rfl
/-- V55. -/
theorem test_validatePosition_V55 :
    seen (·.out.txResults) (exec (.validatePosition 0x447A2000 0x43960000 0x02) .reset) =
      some [.violations [.x, .grip]] := by rfl
/-- V57 (NaN), and the first patterns above each bound (V46, V47). -/
theorem test_validatePosition_V57_V46_V47 :
    positionViolations .builtIn 0x7FC00000 0x7FC00000 0x00 = [.x, .z] ∧
      positionViolations .builtIn 0x447A0001 0x43FA0001 0x01 = [.x, .z] ∧
      positionViolations .builtIn 0x447A0000 0x43FA0000 0x01 = [] := ⟨rfl, rfl, rfl⟩
/-- V60. -/
theorem test_packPosition_V60 :
    seen (·.out.packed) (exec (.packPosition 0x12345678 0x9ABCDEF0 0x5A) .reset) =
      some [[0x78, 0x56, 0x34, 0x12, 0xF0, 0xDE, 0xBC, 0x9A, 0x5A]] := by decide
/-- V62. -/
theorem test_unpackPosition_V62 :
    seen (·.out.unpacked) (exec (.unpackPosition ⟨0x77, 9, [0x00, 0x40, 0x9C, 0x45, 0x00, 0x00, 0xC0, 0x7F, 0x07]⟩) .reset) =
      some [some ⟨0x459C4000, 0x7FC00000, 0x07⟩] := by decide
/-- V65. -/
theorem test_unpackPosition_V65 :
    seen (·.out.unpacked) (exec (.unpackPosition ⟨0x01, 10, [0, 0, 0, 0, 0, 0, 0, 0, 0, 0]⟩) .reset) =
      some [none] := by decide
/-- V26, first FEED (the example of R130). -/
theorem test_feed_V26 :
    feed 100 [] [0x00, 0x11, 0x44, 0x58, 0x01, 0x00, 0x01, 0x58, 0x44, 0x44, 0x58, 0x02] =
      ⟨[0x44, 0x58, 0x02], [⟨0x01, 0, []⟩], [⟨.garbageTrim, [0x00, 0x11]⟩], .partialMin⟩ := by decide
/-- V28b: a corrupted length byte. -/
theorem test_feed_V28b :
    feed 100 [] [0x44, 0x58, 0x01, 0x00, 0x44, 0x58, 0x00, 0x00, 0x09, 0x09, 0x09, 0xBF, 0x58, 0x44,
        0x44, 0x58, 0x03, 0x00, 0x03, 0x58, 0x44] =
      ⟨[], [⟨0x03, 0, []⟩], [⟨.corruptFooter, [0x44, 0x58, 0x01, 0x00, 0x44, 0x58, 0x00]⟩,
        ⟨.garbageTrim, [0x00, 0x09, 0x09, 0x09, 0xBF, 0x58, 0x44]⟩], .idleNoHeader⟩ := by decide
/-- V23: the threshold is exceeded at 101 bytes, not at 100. -/
theorem test_feed_threshold_V23 :
    (feed 100 [] (List.replicate 100 0xAA)).stop = .idleNoHeader ∧
      feed 100 (List.replicate 100 0xAA) [0xAA] =
        ⟨[], [], [⟨.garbageFlush, List.replicate 101 0xAA⟩], .flushed⟩ := by decide +kernel
/-- V20: footer and checksum both wrong. -/
theorem test_frame_V20 :
    seen (fun t => (t.out.frames, t.out.diags)) (exec (.frame 0x05 [0x11, 0x02] 0x0A 0x00 0x44) .reset) =
      some ([], [⟨.corruptFooter, [0x44, 0x58, 0x05, 0x02, 0x11, 0x02, 0x0A, 0x00, 0x44]⟩]) := by decide
/-- V35: exchanged payload bytes pass. -/
theorem test_frame_V35 :
    seen (fun t => (t.out.frames, t.out.diags)) (exec (.frame 0x05 [0x02, 0x01] 0x0A 0x58 0x44) .reset) =
      some ([⟨0x05, 2, [0x02, 0x01]⟩], []) := by decide
/-- V16. -/
theorem test_framePos_V16 :
    seen (fun t => (t.buf, t.out.frames)) (exec (.framePos 0x01 0x43168000 0x43960000 0x01 0xBD) .reset) =
      some ([], [⟨0x01, 9, [0x00, 0x80, 0x16, 0x43, 0x00, 0x00, 0x96, 0x43, 0x01]⟩]) := by decide
/-- R222: behind a stale `44 58 01 09`, the frame's first 12 bytes complete the stale candidate. -/
theorem test_framePos_stale :
    seen (fun t => (t.buf, t.out.diags.map (·.kind)))
        (exec (.framePos 0x01 0x43168000 0x43960000 0x01 0xBD) { State.reset with buf := [0x44, 0x58, 0x01, 0x09] }) =
      some ([0x01, 0xBD, 0x58, 0x44], [.corruptFooter]) := by decide
/-- V66 steps 3 and 4. -/
theorem test_push_V66 : seen (·.fq) (exec (.push frameB) { State.reset with fq := [frameA] }) = some [frameA, frameB] := by
  decide
theorem test_tryPop_V66 :
    seen (fun t => (t.fq, t.out.pops)) (exec .tryPop { State.reset with fq := [frameA, frameB] }) =
      some ([frameB], [some frameA]) := by decide
theorem test_tryPop_empty : seen (·.out.pops) (exec .tryPop .reset) = some [none] := by decide
/-- Program 3 steps 4 and 6: the frame of a FEED is pushed although the next turn brings more bytes, whose turn
stays. -/
theorem test_push_program3 :
    seen (fun t => (t.fq, t.ports.frames, t.ports.turns)) (step { State.reset with
      ports := { Ports.empty with turns := [.rx], rxBeats := [0b1101000100], frames := [frameA] } }) =
      some ([frameA], [], [.rx]) := by decide
/-- D22 and R212: a RESET between a FEED and its PUSH leaves nothing to push. -/
theorem test_reset_before_push :
    seen (fun t => (t.fq, t.ports.frames)) (exec .reset { State.reset with ports := { Ports.empty with frames := [frameA] } }) =
      some ([], []) := by decide
/-- V67. -/
theorem test_reset_V67 :
    seen id (exec .reset { State.reset with buf := [0x44, 0x58, 0x01], fq := [frameA] }) = some State.reset := by decide

/-! ## Codes, values, steps -/

/-- Program 4 steps 4 and 5, V58. -/
theorem test_result_words :
    (TxResult.invalidPayload 256).word = 0b0100000000000 ∧
      (TxResult.outOfRange [.x, .z, .grip]).word = 0b1011100000000 ∧
      (TxResult.violations [.x, .grip]).word = 0b0010100000000 ∧ (TxResult.sum 0x0A).word = 0b0000000001010 := by decide
/-- R71: 150.5 = 301 / 2. -/
theorem test_f32_values :
    f32val 0x43168000 = .finite (301 * 2 ^ 148) ∧ f32val 0x40A00000 = .finite (5 * 2 ^ 149) ∧
      f32val 0x00000001 = .finite 1 ∧ f32val 0x80000000 = .finite 0 := ⟨rfl, rfl, rfl, rfl⟩
/-- The FRAME row's number, as the first step after reset. -/
theorem test_first_step_after_reset :
    seen (fun t => (t.buf, t.ports, t.out.diags)) (step (State.reset.withFetchWord 16 0x4458)) =
      some ([], Ports.empty, [⟨.corruptFooter, [0x44, 0x58, 0, 0, 0, 0, 0]⟩]) := by decide
/-- With nothing offered the block is idle; a finite queue that is full refuses. -/
theorem test_idle_and_full :
    seen id (step State.reset) = some State.reset ∧
      seen id (exec (.push frameA) { tiny with fq := [frameB] }) = none := by decide

/-! ## Witnesses: for each statement with hypotheses, states and operands that meet them, clause by clause -/

/-- Q1 with a frame behind it in the queue and a turn to take. -/
def waiting : State :=
  { State.reset with
    buf := [0x44, 0x58, 0x01]
    fq := [frameA]
    ports := { Ports.empty with turns := [.pop, .rx], popStrobe := [1] } }

/-- The minimum frame of V10. -/
def minimal : List Byte := [0x44, 0x58, 0x00, 0x00, 0x00, 0x58, 0x44]

/-- One frame has been sent. -/
def sent : State :=
  { State.reset with out := { Outputs.empty with txBytes := frameBeats minimal, txResults := [.encoded, .sum 1] } }

theorem noHeaderIn {b : List Byte} (h : find b header = none) : ∀ j, ¬ HeaderAt b j := (find_none_iff b).mp h

theorem witness_DecodeReadsBackEncodedWords :
    Instr.wf (.frame 0x05 [0x01, 0x02] 0x0A 0x58 0x44) = true ∧ Instr.wf (.push frameA) = true ∧
      Instr.wf (.frame 0x05 (List.replicate 255 0) 0 0 0) = true := by decide +kernel

theorem witness_LinkReadsAreWireRowsOrChunks :
    isCandidate minimal = true ∧ isCandidate (minimal.take 6) = false ∧ isCandidate [] = false := by decide

theorem witness_BeatsWithoutByteCarryNothing :
    (∀ b ∈ [mkBeat true false 0x44, mkBeat false false 0], Beat.last b = false) ∧
      (∀ b ∈ ([] : List Beat), Beat.last b = false) := by decide

/-- A frame whose PUSH has not come, before a turn that brings bytes. -/
def unpushed : State :=
  { State.reset with
    ports := { Ports.empty with turns := [.rx], rxBeats := [mkBeat false true 0], frames := [frameA, frameB] }
    out := { Outputs.empty with frames := [frameA, frameB] } }

theorem witness_StepRunsTheDecodedInstruction :
    waiting.ports.turns = .pop :: [.rx] ∧ Port.pop.bringsBytes = false ∧
      decode .pop { waiting.ports with turns := [.rx] } = .ok (.tryPop, { Ports.empty with turns := [.rx] }) ∧
      unpushed.ports.frames = frameA :: [frameB] ∧ frameA.wf = true ∧ unpushed.ports.turns = .rx :: [] ∧
      Port.rx.bringsBytes = true := ⟨rfl, rfl, rfl, rfl, rfl, rfl, rfl⟩

theorem witness_OfferedInstructionIsTheNextToRun :
    Instr.wf (.unpackPosition ⟨0x01, 2, [0, 1]⟩) = true ∧ isFeed (.unpackPosition frameA) = false ∧
      Instr.wf (.feed []) = true ∧ State.reset.ports.frames = [] ∧ isFeed (.feed []) = true ∧
      unpushed.ports.frames = frameA :: [frameB] ∧ frameA.wf = true := by decide

theorem witness_TableWordIsTheNextToRun :
    decodeTableWord 16 0x4458 = some (.frame 0 [] 0 0 0) ∧ decodeTableWord 16 1023 = some (.validatePosition 0 0 0) ∧
      decodeTableWord 0 0 = some (.push ⟨0, 0, []⟩) := by decide

/-- Idle; a record that is no Frame object, at a turn and waiting for its PUSH; a strobe of 0; an open stream. -/
theorem witness_BlockWaitsWithoutAnInstruction :
    State.reset.ports.turns = [] ∧ State.reset.ports.frames = [] ∧
      decode .direct { Ports.empty with direct := [.unpackPosition ⟨1, 2, []⟩] } = .error .notAFrameObject ∧
      decode .reset { Ports.empty with resetInput := [0] } = .error .strobeLow ∧
      decode .rx { Ports.empty with rxBeats := [mkBeat true false 1] } = .error .streamOpen ∧
      { Ports.empty with frames := [⟨1, 2, []⟩] }.frames = ⟨1, 2, []⟩ :: [] ∧ Frame.wf ⟨1, 2, []⟩ = false :=
  ⟨rfl, rfl, rfl, rfl, rfl, rfl, rfl⟩

theorem witness_EncodeSendsTheFrameOrInvalidPayload :
    (List.replicate 255 (0 : Byte)).length ≤ 255 ∧ 255 < (List.replicate 256 (0 : Byte)).length := by
  decide +kernel

theorem witness_EncodedFramesAreValidAndInjective :
    (List.replicate 255 (0 : Byte)).length ≤ 255 ∧ ([] : List Byte).length ≤ 255 ∧
      buildFrame 0x05 [0x01] = buildFrame 0x05 [0x01] := by decide +kernel

theorem witness_TxBeatsMarkTheLastByteOnly : (0 < [0x44].length) ∧ 1 < [0x44, 0x58].length := by decide

theorem witness_TxChannelCarriesWholeFramesOnly : sent.WholeFramesOnTx ∧ step sent = .next sent :=
  ⟨⟨[minimal], by decide, by decide, by decide⟩, rfl⟩

theorem witness_EncodePositionValidatesThenEncodes :
    positionViolations State.reset.cfg 0x447A0000 0x43FA0000 0x01 = [] ∧
      positionViolations State.reset.cfg 0x447A0001 0x43FA0000 0x01 ≠ [] ∧
      positionViolations State.reset.cfg 0 0 0x02 ≠ [] := by decide +kernel

theorem witness_WorkedExampleOfThePositionCommand : waiting.cfg = Config.builtIn := rfl

/-- NaN, the infinities, the largest finite value, the smallest positive one and `-0.0`. -/
theorem witness_PatternsHaveTheirBinary32Values :
    (0x7FC00000#32).toNat = 0 * 2 ^ 31 + 255 * 2 ^ 23 + 0x400000 ∧
      (0xFF800000#32).toNat = 1 * 2 ^ 31 + 255 * 2 ^ 23 + 0 ∧
      (0x7F7FFFFF#32).toNat = 0 * 2 ^ 31 + 254 * 2 ^ 23 + 0x7FFFFF ∧
      (0x00800000#32).toNat = 0 * 2 ^ 31 + 1 * 2 ^ 23 + 0 ∧
      (0x00000001#32).toNat = 0 * 2 ^ 31 + 0 * 2 ^ 23 + 1 ∧ (0x80000000#32).toNat = 1 * 2 ^ 31 + 0 * 2 ^ 23 + 0 := by
  decide

theorem witness_ValidPatternsAtTheBuiltInBounds : State.reset.cfg = Config.builtIn := rfl

theorem witness_FeedNeverFails :
    isFeed (.feed []) = true ∧ isFeed (.frame 0 [] 0 0x58 0x44) = true ∧ isFeed (.framePos 0 0 0 0 0) = true ∧
      tiny.accepts (List.replicate 16 0) = true ∧ State.reset.Unbounded :=
  ⟨rfl, rfl, rfl, by decide, rfl, rfl, rfl⟩

/-- Each ground for a refusal, one past its limit. -/
theorem witness_OnlyFiniteInstancesRefuse :
    exec (.feed [1, 2]) { tiny with cfg := { tiny.cfg with maxChunk := some 1 } } = .refused .chunkOverCapacity ∧
      exec (.feed [1, 2]) { tiny with buf := [0], cfg := { tiny.cfg with bufCap := some 2 } } =
        .refused .chunkOverCapacity ∧
      exec (.push frameA) { tiny with fq := [frameB] } = .refused .frameQueueFull := ⟨rfl, rfl, rfl⟩

theorem witness_FeedAppendsTheWholeChunkFirst : waiting.accepts [0x00, 0x01] = true ∧ tiny.accepts [] = true := by decide

theorem witness_FeedIsTotal : waiting.Unbounded := ⟨rfl, rfl, rfl⟩

/-- No header: 4 bytes against a threshold of 3, then 3 bytes. A header at 2, and at 0. -/
theorem witness_SearchFlushesWaitsOrTrims :
    tiny.accepts [1, 2, 3, 0x44] = true ∧ (∀ j, ¬ HeaderAt (tiny.buf ++ [1, 2, 3, 0x44]) j) ∧
      tiny.cfg.garbageThreshold < (tiny.buf ++ [1, 2, 3, 0x44]).length ∧
      (∀ j, ¬ HeaderAt (tiny.buf ++ [1, 2, 0x44]) j) ∧
      (tiny.buf ++ [1, 2, 0x44]).length ≤ tiny.cfg.garbageThreshold ∧
      (HeaderAt (tiny.buf ++ [1, 0x44, 0x44, 0x58]) 2 ∧ ∀ j < 2, ¬ HeaderAt (tiny.buf ++ [1, 0x44, 0x44, 0x58]) j) ∧
      (HeaderAt (tiny.buf ++ [0x44, 0x58]) 0 ∧ ∀ j < 0, ¬ HeaderAt (tiny.buf ++ [0x44, 0x58]) j) :=
  ⟨by decide, noHeaderIn (by decide), by decide, noHeaderIn (by decide), by decide,
    (find_some_iff _ 2).mp (by decide), (find_some_iff _ 0).mp (by decide)⟩

/-- 6 bytes; 7 bytes of 8; a length byte of 255. -/
theorem witness_PartialFramesWait :
    waiting.accepts [0x00, 0x01, 0x58] = true ∧ (waiting.buf ++ [0x00, 0x01, 0x58]).take 2 = [0x44, 0x58] ∧
      (waiting.buf ++ [0x00, 0x01, 0x58]).length < 7 ∧
      7 ≤ (waiting.buf ++ [0x01, 0x00, 0x00, 0x58]).length ∧
      (waiting.buf ++ [0x01, 0x00, 0x00, 0x58]).length <
        7 + ((waiting.buf ++ [0x01, 0x00, 0x00, 0x58]).getD 3 0).toNat ∧
      (waiting.buf ++ [0xFF, 0x00, 0x00, 0x58]).length <
        7 + ((waiting.buf ++ [0xFF, 0x00, 0x00, 0x58]).getD 3 0).toNat := by decide

/-- Seven bytes behind `44 58 01`: a wrong footer, a wrong checksum, a good frame, the last with a byte behind it. -/
theorem witness_CandidateIsDiscardedOrEmitted :
    waiting.accepts [0x00, 0x01, 0x58, 0x44, 0x44] = true ∧
      (waiting.buf ++ [0x00, 0x01, 0x58, 0x44, 0x44]).take 2 = [0x44, 0x58] ∧
      7 = 7 + ((waiting.buf ++ [0x00, 0x01, 0x58, 0x44, 0x44]).getD 3 0).toNat ∧
      ((waiting.buf ++ [0x00, 0x01, 0x58, 0x45]).take 7).drop 5 ≠ [0x58, 0x44] ∧
      ((waiting.buf ++ [0x00, 0x02, 0x58, 0x44]).take 7).drop 5 = [0x58, 0x44] ∧
      (((((waiting.buf ++ [0x00, 0x02, 0x58, 0x44]).take 7).drop 2).take 2).map BitVec.toNat).sum % 256 ≠
        (((waiting.buf ++ [0x00, 0x02, 0x58, 0x44]).take 7).getD 4 0).toNat ∧
      (((((waiting.buf ++ [0x00, 0x01, 0x58, 0x44, 0x44]).take 7).drop 2).take 2).map BitVec.toNat).sum % 256 =
        (((waiting.buf ++ [0x00, 0x01, 0x58, 0x44, 0x44]).take 7).getD 4 0).toNat := by decide

theorem witness_FrameIntoEmptyBufferIsJudged :
    State.reset.buf = [] ∧ [0x01, 0x02].length ≤ 255 ∧
      State.reset.accepts (wireBytes 0x05 [0x01, 0x02] 0x0A 0x58 0x44) = true ∧ [(0x58 : Byte), 0x45] ≠ [0x58, 0x44] ∧
      ((0x05 : Byte).toNat + 2 + ([(0x01 : Byte), 0x02].map BitVec.toNat).sum) % 256 = (0x0A : Byte).toNat ∧
      ((0x05 : Byte).toNat + 2 + ([(0x11 : Byte), 0x02].map BitVec.toNat).sum) % 256 ≠ (0x0A : Byte).toNat := by decide

theorem witness_FeedLeavesOneOfThreeBuffers :
    (feed 3 [] [0x44]).stop = .idleNoHeader ∧ (feed 3 [] [1, 2, 3, 4]).stop = .flushed ∧
      (feed 3 [] [0x44, 0x58]).stop = .partialMin ∧
      (feed 3 [] [0x44, 0x58, 0x00, 0x01, 0x00, 0x00, 0x58]).stop = .partialLen := by decide

/-- Q1, with the next state a TRY_POP gives. -/
theorem witness_EveryStepKeepsTheInvariant :
    waiting.Inv ∧ (∃ t, step waiting = .next t ∧ t.fq = []) :=
  ⟨⟨Or.inr (Or.inl ⟨rfl, by decide⟩), by decide, by decide, by decide, rfl, rfl⟩, _, rfl, rfl⟩

/-- A finite instance at its limits, and a FEED that completes. -/
theorem witness_ResidualBufferIsBounded :
    (∃ t, exec (.feed [0x00]) waiting = .next t) ∧ (∀ j, ¬ HeaderAt [0x44] j) ∧
      tiny.Inv ∧ tiny.cfg.garbageThreshold ≤ 261 ∧ tiny.cfg.maxChunk = some 16 ∧ tiny.cfg.bufCap = some 277 ∧
      261 + 16 ≤ 277 ∧ (List.replicate 16 (0 : Byte)).length ≤ 16 :=
  ⟨⟨_, rfl⟩, noHeaderIn (by decide), ⟨Or.inl ⟨by decide, by decide⟩, by decide, by decide, by decide, rfl, rfl⟩, by decide, rfl, rfl,
    by decide, by decide⟩

/-- Q0 at the threshold, Q1, Q2. -/
theorem witness_EmptyFeedChangesNothing :
    { tiny with buf := [1, 2, 0x44] }.Inv ∧ waiting.Inv ∧
      { tiny with buf := [0x44, 0x58, 0x00, 0x01, 0x00, 0x00, 0x58] }.Inv ∧
      BufferQ0 3 [1, 2, 0x44] ∧ BufferQ1 waiting.buf ∧ BufferQ2 [0x44, 0x58, 0x00, 0x01, 0x00, 0x00, 0x58] :=
  ⟨⟨Or.inl ⟨by decide, by decide⟩, by decide, by decide, by decide, rfl, rfl⟩,
    ⟨Or.inr (Or.inl ⟨rfl, by decide⟩), by decide, by decide, by decide, rfl, rfl⟩,
    ⟨Or.inr (Or.inr ⟨rfl, by decide, by decide⟩), by decide, by decide, by decide, rfl, rfl⟩,
    ⟨by decide, by decide⟩, ⟨rfl, by decide⟩, ⟨rfl, by decide, by decide⟩⟩

/-- A trim, a corrupt candidate and a frame in one FEED. -/
theorem witness_EveryByteIsAccountedFor :
    isFeed (.feed ([0x01] ++ [0x44, 0x58, 0x01, 0x00, 0x01, 0x58, 0x45] ++ minimal)) = true ∧
      seen (fun t => (t.out.frames.length, t.out.diags.map (·.kind)))
        (exec (.feed ([0x01] ++ [0x44, 0x58, 0x01, 0x00, 0x01, 0x58, 0x45] ++ minimal)) .reset) =
        some (1, [.garbageTrim, .corruptFooter]) := by decide

/-- A stream with a flush that is not lossy, cut in two ways, at a threshold of 3. -/
theorem witness_ChunkingIsInvisibleWithoutLossyFlush :
    { State.reset with cfg := { Config.builtIn with garbageThreshold := 3 } }.Unbounded ∧
      [[1, 2, 3, 4], minimal].flatten = [[1, 2], [3, 4, 0x44, 0x58], minimal.drop 2].flatten ∧
      lossyRun 3 [] [[1, 2, 3, 4], minimal] = false ∧
      lossyRun 3 [] [[1, 2], [3, 4, 0x44, 0x58], minimal.drop 2] = false ∧
      lossyRun 3 [] [[1, 2, 3, 0x44], minimal.drop 1] = true := ⟨⟨rfl, rfl, rfl⟩, by decide, by decide, by decide, by decide⟩

theorem witness_FlushAcrossAHeaderLosesTheFrame :
    State.reset.buf = [] ∧ State.reset.Unbounded ∧ [(0x01 : Byte), 0x02].length ≤ 255 ∧
      (∀ j, ¬ HeaderAt ((buildFrame 0x05 [0x01, 0x02]).drop 1) j) ∧
      List.replicate 100 (0 : Byte) = List.replicate State.reset.cfg.garbageThreshold 0x00 :=
  ⟨rfl, ⟨rfl, rfl, rfl⟩, by decide, noHeaderIn (by decide), rfl⟩

theorem witness_BackToBackFramesSurviveEveryChunking :
    State.reset.buf = [] ∧ State.reset.Unbounded ∧ 1 ≤ State.reset.cfg.garbageThreshold ∧
      (∀ m ∈ [((0x00 : Byte), ([] : List Byte)), (0x00, [])], m.2.length ≤ 255) ∧
      [[0x44], minimal.drop 1 ++ [0x44, 0x58], [], minimal.drop 2].flatten =
        ([((0x00 : Byte), ([] : List Byte)), (0x00, [])].map fun m => buildFrame m.1 m.2).flatten :=
  ⟨rfl, ⟨rfl, rfl, rfl⟩, by decide, by decide, by decide⟩

theorem witness_EncodeThenFeedRoundTrip :
    State.reset.buf = [] ∧ State.reset.Unbounded ∧ (List.replicate 255 (0 : Byte)).length ≤ 255 :=
  ⟨rfl, ⟨rfl, rfl, rfl⟩, by decide +kernel⟩

theorem witness_PositionRoundTripIsExact :
    State.reset.buf = [] ∧ State.reset.Unbounded ∧
      (0xBD : Byte) = sum8 ([0x01, 0x09] ++ le32 0x43168000 ++ le32 0x43960000 ++ [0x01]) ∧
      positionViolations State.reset.cfg 0x43168000 0x43960000 0x01 = [] :=
  ⟨rfl, ⟨rfl, rfl, rfl⟩, by decide, by decide +kernel⟩

/-- Garbage that ends in half a header, and none at all. -/
theorem witness_ResynchronizesAfterGarbage :
    { State.reset with buf := [0x58] }.Unbounded ∧ (∀ j, ¬ HeaderAt ([0x58] ++ [0x00, 0x44]) j) ∧
      (∀ j, ¬ HeaderAt (([] : List Byte) ++ []) j) ∧ [(0x01 : Byte)].length ≤ 255 :=
  ⟨⟨rfl, rfl, rfl⟩, noHeaderIn (by decide), noHeaderIn (by decide), by decide⟩

/-- Bit 7 of each kind of byte of the frame `44 58 05 02 01 02 0A 58 44`. -/
theorem witness_SingleBitFlipsAreDetected :
    State.reset.buf = [] ∧ State.reset.Unbounded ∧ [(0x01 : Byte), 0x02].length ≤ 255 ∧ 7 < 8 ∧
      (0x0A : Byte).toNat = ((0x05 : Byte).toNat + 2 + ([(0x01 : Byte), 0x02].map BitVec.toNat).sum) % 256 ∧
      (0x85 : Byte) = 0x05 ^^^ (1#8 <<< 7) ∧
      [(0x01 : Byte), 0x82] = [(0x01 : Byte), 0x02].set 1 ([(0x01 : Byte), 0x02][1] ^^^ (1#8 <<< 7)) ∧
      (0x8A : Byte) = 0x0A ^^^ (1#8 <<< 7) := ⟨rfl, ⟨rfl, rfl, rfl⟩, by decide, by decide, by decide, by decide, by decide, by decide⟩

theorem witness_EqualSumsAreNotDetected :
    State.reset.buf = [] ∧ State.reset.Unbounded ∧ [(0x01 : Byte), 0x02].length ≤ 255 ∧
      [(0x02 : Byte), 0x01].length = [(0x01 : Byte), 0x02].length ∧
      ([(0x02 : Byte), 0x01].map BitVec.toNat).sum % 256 = ([(0x01 : Byte), 0x02].map BitVec.toNat).sum % 256 ∧
      (0x0A : Byte).toNat = ((0x05 : Byte).toNat + 2 + ([(0x01 : Byte), 0x02].map BitVec.toNat).sum) % 256 :=
  ⟨rfl, ⟨rfl, rfl, rfl⟩, by decide, by decide, by decide, by decide⟩

theorem witness_PushAppendsToTheQueue :
    State.reset.cfg.fqDepth = none ∧ tiny.cfg.fqDepth = some 1 ∧ tiny.fq.length < 1 := by decide

theorem witness_TryPopTakesTheOldest : State.reset.fq = [] ∧ waiting.fq = frameA :: [] := by decide

theorem witness_QueueDeliversInOrderOnce : waiting.Unbounded := ⟨rfl, rfl, rfl⟩

/-- The step is a PUSH. -/
theorem witness_FramesReachTheQueueOnceInOrder :
    (∃ t, step unpushed = .next t ∧ t.fq = [frameA]) ∧ unpushed.handled.Sublist unpushed.out.frames ∧
      unpushed.handled = unpushed.out.frames ∧
      ∀ (p : Port) (pending q : Ports), nextPort unpushed.ports = some (p, pending) → decode p pending ≠ .ok (.reset, q) := by
  refine ⟨⟨_, rfl, rfl⟩, List.Sublist.refl _, rfl, ?_⟩
  intro p pending q h
  cases h
  simp [decode, decodePush, unpushed, frameA, Frame.wf]

theorem witness_WaitingFramesArePushedBeforeMoreBytes :
    unpushed.cfg.fqDepth = none ∧ (∀ f ∈ unpushed.ports.frames, f.wf = true) ∧ unpushed.ports.turns = .rx :: [] ∧
      Port.rx.bringsBytes = true ∧ State.reset.ports.turns = [] := by decide

theorem witness_UnpackPositionInvertsPack :
    Frame.wf ⟨0x01, 8, List.replicate 8 0⟩ = true ∧ Frame.wf ⟨0x01, 9, List.replicate 9 0⟩ = true ∧
      Frame.wf ⟨0x01, 10, List.replicate 10 0⟩ = true := by decide

/-- A frame waits for its PUSH, and no turn is left. -/
theorem witness_ResetLeavesEverythingElse :
    { unpushed with ports := { Ports.empty with frames := [frameA] } }.ports.turns = [] ∧
      exec .reset { unpushed with ports := { Ports.empty with frames := [frameA] } } =
        .next { State.reset with out := unpushed.out } := ⟨rfl, rfl⟩

/-- A FEED, a TRY_POP and a RESET that change what they may. -/
theorem witness_OnlyTheirWritersChangeBufferAndQueue :
    seen (fun t => decide (t.buf ≠ waiting.buf)) (exec (.feed [0x00]) waiting) = some true ∧
      seen (fun t => decide (t.ports ≠ waiting.ports)) (exec (.feed [0x00, 0x01, 0x58, 0x44]) waiting) = some true ∧
      seen (fun t => decide (t.fq ≠ waiting.fq)) (exec .tryPop waiting) = some true ∧
      seen (fun t => decide (t.fq ≠ waiting.fq ∧ t.buf ≠ waiting.buf)) (exec .reset waiting) = some true := by decide

theorem witness_PureOperationsIgnoreBufferAndQueue :
    isTransmit (.csum []) = true ∧ isTransmit (.packPosition 0 0 0) = true ∧
      ∃ f, Instr.unpackPosition frameA = .unpackPosition f := ⟨rfl, rfl, frameA, rfl⟩

theorem witness_FeedReadsTheBufferOnly : isFeed (.feed [0x00]) = true ∧ ∃ t, exec (.feed [0x00]) waiting = .next t :=
  ⟨rfl, _, rfl⟩

theorem witness_TransmitAndReceiveCommute :
    isTransmit (.encode 0x06 []) = true ∧ isReceive (.feed minimal) = true ∧ isReceive .tryPop = true := by decide

theorem witness_OnlyEncodePositionAnswersOutOfRange :
    seen (·.out.txResults) (exec (.encodePosition 0x01 0 0 0x02) .reset) =
        some (State.reset.out.txResults ++ [.outOfRange [.grip]]) ∧
      [PosField.grip] = positionViolations State.reset.cfg 0 0 0x02 := ⟨rfl, by decide +kernel⟩

theorem witness_OnlyEncodeAnswersInvalidPayload :
    seen (·.out.txResults) (exec (.encode 0x01 (List.replicate 256 0)) .reset) =
        some (State.reset.out.txResults ++ [.invalidPayload 256]) ∧
      255 < (List.replicate 256 (0 : Byte)).length := by decide +kernel

end Sys2Proof.Tests
end

section
/-! ## The state right after reset (R34) -/

namespace Sys2Proof.Machine

/-- The built-in constants carry R7's unbounded values, so every state that holds them is an unbounded instance. -/
theorem State.unbounded_of_cfg_eq_builtIn {s : State} (h : s.cfg = Config.builtIn) : s.Unbounded := by
  unfold State.Unbounded
  rw [h]
  exact ⟨rfl, rfl, rfl⟩

/-- Settles O53: the fields of the reset state, and R7's unbounded limits among the built-in constants. -/
theorem stateRightAfterReset : Obligations.StateRightAfterReset :=
  ⟨State.reset_buf, State.reset_fq, State.reset_cfg, State.unbounded_of_cfg_eq_builtIn State.reset_cfg⟩

end Sys2Proof.Machine
end

section
/-! ## Valid frames (R62) -/

namespace Sys2Proof.Machine

/-- The transmitted checksum byte is the computed one exactly when, as a number, it is the byte sum of the covered
range modulo 256. -/
theorem checksumByte_eq_sum8_iff (c : List Byte) :
    checksumByte c = sum8 (summedRange c) ↔
      (checksumByte c).toNat = ((summedRange c).map BitVec.toNat).sum % 256 := by
  rw [← BitVec.toNat_inj, sum8_toNat]

/-- The five tests of R62, each as a proposition. -/
theorem validFrame_iff (c : List Byte) :
    validFrame c = true ↔ minFrame ≤ c.length ∧ c.length = totalLen c ∧ c.take 2 = header ∧ footerBytes c = footer ∧
      checksumByte c = sum8 (summedRange c) := by
  simp only [validFrame, Bool.and_eq_true, decide_eq_true_eq, beq_iff_eq, and_assoc]

/-- Settles O10: `validFrame_iff`, with the checksum compared as a number. -/
theorem validFrameIsTheFormula : Obligations.ValidFrameIsTheFormula := by
  intro c
  rw [validFrame_iff, checksumByte_eq_sum8_iff]
  exact Iff.rfl

end Sys2Proof.Machine
end

section
/-! ## Serving a turn, and a TX command with its operand stream (R75) -/

namespace Sys2Proof.Machine

/-- A turn that is taken as it comes runs the instruction decoded at its port, without the words of that instruction. -/
theorem step_of_turn {s : State} {p : Port} {ps : List Port} {i : Instr} {q : Ports} (ht : s.ports.turns = p :: ps)
    (hf : p.bringsBytes = false ∨ s.ports.frames = []) (hd : decode p { s.ports with turns := ps } = .ok (i, q)) :
    step s = exec i { s with ports := q } := by
  simp only [step, nextPort_turn ht hf, hd]

/-- The operand stream in front is taken whole, and what follows it stays. -/
theorem takeStream_encodeStream {q : Ports} {bytes : List Byte} {rest : List Beat} (f : List Byte → Instr)
    (h : q.txStream = encodeStream bytes ++ rest) :
    takeStream q f = .ok (f bytes, { q with txStream := rest }) := by
  simp only [takeStream, h, decodeStream_encodeStream]

/-- A command word `10 uuuuuuuu` asks for CSUM of the operand stream, whatever its low bits. -/
theorem decodeTx_csum {q : Ports} {u : Byte} {ws : List CmdWord} (h : q.txCmd = mkCmd 2 u :: ws) :
    decodeTx q = takeStream { q with txCmd := ws } .csum := by
  simp [decodeTx, h]

end Sys2Proof.Machine
end

section
/-! ## CSUM (R90) -/

namespace Sys2Proof.Machine

/-- CSUM completes in every state, and its only effect is its result. -/
theorem exec_csum (bytes : List Byte) (s : State) : exec (.csum bytes) s = .next (s.reply (.sum (sum8 bytes))) := rfl

/-- The checksum does not depend on the order of the bytes. -/
theorem sum8_perm {l l' : List Byte} (h : l.Perm l') : sum8 l = sum8 l' := by
  simp only [sum8, (h.map BitVec.toNat).sum_eq]

/-- The result word of CSUM has code 0 and mask 0, so as a number it is the value alone (R75). -/
theorem toNat_word_sum (v : Byte) : (TxResult.sum v).word.toNat = v.toNat := by
  rw [TxResult.word, BitVec.toNat_append, BitVec.toNat_append]
  simp [TxResult.code, TxResult.mask, TxResult.value]

/-- The next operation of the TX port is CSUM of the bytes when its command word and then their stream stand there. -/
theorem decode_csum {q : Ports} {u : Byte} {ws : List CmdWord} {bytes : List Byte} {rest : List Beat}
    (hc : q.txCmd = mkCmd 2 u :: ws) (hs : q.txStream = encodeStream bytes ++ rest) :
    decode .tx q = .ok (.csum bytes, { q with txCmd := ws, txStream := rest }) :=
  (decodeTx_csum hc).trans (takeStream_encodeStream .csum hs)

/-- The command word and the operand stream of CSUM, offered with a turn, run it and leave what was pending. -/
theorem step_offered_csum (s : State) (bytes : List Byte) (u : Byte) :
    step (s.offered { Ports.empty with turns := [.tx], txCmd := [mkCmd 2 u], txStream := encodeStream bytes }) =
      exec (.csum bytes) s :=
  step_of_turn (p := .tx) (ps := s.ports.turns) rfl (.inl rfl)
    (decode_csum (u := u) (ws := s.ports.txCmd) (rest := s.ports.txStream) rfl rfl)

/-- Settles O9: the value is `sum8 bytes`. -/
theorem csumAnswersTheSumModulo256 : Obligations.CsumAnswersTheSumModulo256 := by
  intro s bytes
  refine ⟨sum8 bytes, sum8_toNat bytes, exec_csum bytes s, toNat_word_sum _, ?order, step_offered_csum s bytes⟩
  case order =>
    intro bytes' h
    rw [exec_csum, exec_csum, sum8_perm h]

end Sys2Proof.Machine
end

section
/-! ## ENCODE (R100, R101) -/

namespace Sys2Proof.Machine

/-- A payload the length byte can state: the whole frame goes out, and the answer is OK. -/
theorem exec_encode_of_le {payload : List Byte} (h : payload.length ≤ maxPayload) (cmd : Byte) (s : State) :
    exec (.encode cmd payload) s = .next ((s.transmit (buildFrame cmd payload)).reply .encoded) :=
  congrArg Host.Outcome.next (if_neg (Nat.not_lt.mpr h))

/-- A longer payload: nothing is sent, and the answer names its length. -/
theorem exec_encode_of_lt {payload : List Byte} (h : maxPayload < payload.length) (cmd : Byte) (s : State) :
    exec (.encode cmd payload) s = .next (s.fail (.invalidPayload payload.length)) :=
  congrArg Host.Outcome.next (if_pos h)

/-- A frame has seven bytes besides its payload (R61). -/
theorem buildFrame_length (cmd : Byte) (payload : List Byte) :
    (buildFrame cmd payload).length = 7 + payload.length := by
  rw [buildFrame_eq, wireBytes_length]

/-- The checksum of a frame is the sum of command, length and payload modulo 256, where the length byte counts as the
length itself (R91). -/
theorem toNat_sum8_body (cmd : Byte) (payload : List Byte) :
    (sum8 ([cmd, BitVec.ofNat 8 payload.length] ++ payload)).toNat =
      (cmd.toNat + payload.length + (payload.map BitVec.toNat).sum) % 256 := by
  rw [sum8_toNat]
  simp only [List.cons_append, List.nil_append, List.map_cons, List.sum_cons, BitVec.toNat_ofNat]
  omega

/-- A command word `00 cccccccc` asks for ENCODE of the operand stream. -/
theorem decodeTx_encode {q : Ports} {cmd : Byte} {ws : List CmdWord} (h : q.txCmd = mkCmd 0 cmd :: ws) :
    decodeTx q = takeStream { q with txCmd := ws } (.encode cmd) := by
  simp [decodeTx, h]

/-- The next operation of the TX port is ENCODE of the payload when its command word and then its stream stand there. -/
theorem decode_encode {q : Ports} {cmd : Byte} {ws : List CmdWord} {payload : List Byte} {rest : List Beat}
    (hc : q.txCmd = mkCmd 0 cmd :: ws) (hs : q.txStream = encodeStream payload ++ rest) :
    decode .tx q = .ok (.encode cmd payload, { q with txCmd := ws, txStream := rest }) :=
  (decodeTx_encode hc).trans (takeStream_encodeStream (.encode cmd) hs)

/-- The command word and the payload stream of ENCODE, offered with a turn, run it and leave what was pending. -/
theorem step_offered_encode (s : State) (cmd : Byte) (payload : List Byte) :
    step (s.offered { Ports.empty with turns := [.tx], txCmd := [mkCmd 0 cmd], txStream := encodeStream payload }) =
      exec (.encode cmd payload) s :=
  step_of_turn (p := .tx) (ps := s.ports.turns) rfl (.inl rfl)
    (decode_encode (cmd := cmd) (ws := s.ports.txCmd) (rest := s.ports.txStream) rfl rfl)

/-- Settles O11: the frame is `buildFrame`, written out by `buildFrame_eq`. -/
theorem encodeSendsTheFrameOrInvalidPayload : Obligations.EncodeSendsTheFrameOrInvalidPayload := by
  intro s cmd payload
  refine ⟨fun h => ⟨_, toNat_sum8_body cmd payload, ?frame⟩, fun h => exec_encode_of_lt h cmd s,
    step_offered_encode s cmd payload⟩
  case frame =>
    rw [exec_encode_of_le h, buildFrame_eq]
    rfl

end Sys2Proof.Machine
end

section
/-! ## ENCODE_POSITION (R106) -/

namespace Sys2Proof.Machine

/-- Without a violation ENCODE_POSITION is ENCODE of the packed position. -/
theorem exec_encodePosition_of_valid {x z : Word32} {grip : Byte} {s : State}
    (h : positionViolations s.cfg x z grip = []) (cmd : Byte) :
    exec (.encodePosition cmd x z grip) s = exec (.encode cmd (positionPayload x z grip)) s := by
  simp only [exec, execEncodePosition, h, execEncode]

/-- With a violation ENCODE_POSITION answers the whole list, and that is all it does. -/
theorem exec_encodePosition_of_violation {x z : Word32} {grip : Byte} {s : State}
    (h : positionViolations s.cfg x z grip ≠ []) (cmd : Byte) :
    exec (.encodePosition cmd x z grip) s = .next (s.fail (.outOfRange (positionViolations s.cfg x z grip))) := by
  obtain ⟨v, vs, hv⟩ := List.exists_cons_of_ne_nil h
  simp only [exec, execEncodePosition, hv]

/-- The operand word in front is taken, and what follows it stays. -/
theorem takeOperand_cons {q : Ports} {w : OperandWord} {ws : List OperandWord} (f : OperandWord → Instr)
    (h : q.txOperand = w :: ws) : takeOperand q f = .ok (f w, { q with txOperand := ws }) := by
  simp only [takeOperand, h]

/-- A command word `01 cccccccc` asks for ENCODE_POSITION of the fields of the operand word. -/
theorem decodeTx_encodePosition {q : Ports} {cmd : Byte} {ws : List CmdWord} (h : q.txCmd = mkCmd 1 cmd :: ws) :
    decodeTx q = takeOperand { q with txCmd := ws } fun o => .encodePosition cmd o.x o.z o.grip := by
  simp [decodeTx, h]

/-- The next operation of the TX port is ENCODE_POSITION when its command word `01 cccccccc` and its operand word stand
there. -/
theorem decode_encodePosition {q : Ports} {cmd grip : Byte} {x z : Word32} {ws : List CmdWord}
    {os : List OperandWord} (hc : q.txCmd = mkCmd 1 cmd :: ws) (ho : q.txOperand = mkOperand x z grip :: os) :
    decode .tx q = .ok (.encodePosition cmd x z grip, { q with txCmd := ws, txOperand := os }) := by
  rw [decode, decodeTx_encodePosition hc, takeOperand_cons (q := { q with txCmd := ws }) _ ho, x_mkOperand,
    z_mkOperand, grip_mkOperand]

/-- The command word and the operand word of ENCODE_POSITION, offered with a turn, run it and leave what was pending. -/
theorem step_offered_encodePosition (s : State) (cmd : Byte) (x z : Word32) (grip : Byte) :
    step (s.offered { Ports.empty with
      turns := [.tx], txCmd := [mkCmd 1 cmd], txOperand := [mkOperand x z grip] }) =
        exec (.encodePosition cmd x z grip) s :=
  step_of_turn (p := .tx) (ps := s.ports.turns) rfl (.inl rfl)
    (decode_encodePosition (ws := s.ports.txCmd) (os := s.ports.txOperand) rfl rfl)

/-- Settles O16: by whether there is a violation; the nine bytes of a position always fit the length byte. -/
theorem encodePositionValidatesThenEncodes : Obligations.EncodePositionValidatesThenEncodes := by
  intro s cmd x z grip
  refine ⟨fun h => ?valid, fun h => exec_encodePosition_of_violation h cmd,
    step_offered_encodePosition s cmd x z grip⟩
  case valid =>
    have hencode := exec_encodePosition_of_valid h cmd
    have hlen := positionPayload_length x z grip
    have hfits : (positionPayload x z grip).length ≤ maxPayload := by rw [hlen]; decide
    refine ⟨hencode, _, buildFrame cmd (positionPayload x z grip),
      hencode.trans (exec_encode_of_le hfits cmd s), ?_, rfl⟩
    rw [buildFrame_length, hlen]

end Sys2Proof.Machine
end

section
/-! ## PACK_POSITION (R104) -/

namespace Sys2Proof.Machine

/-- PACK_POSITION completes in every state, and its only effect is its result. -/
theorem exec_packPosition (x z : Word32) (grip : Byte) (s : State) :
    exec (.packPosition x z grip) s = .next (s.answerPack (positionPayload x z grip)) := rfl

/-- Byte `k` of `le32 w` is digit `k` of `w` to base 256 (R9, R43). -/
theorem toNat_le32_getD (w : Word32) {k : Nat} (hk : k < 4) :
    ((le32 w).getD k 0).toNat = w.toNat / 256 ^ k % 256 := by
  have hbyte : (le32 w).getD k 0 = w.extractLsb' (8 * k) 8 := by
    interval_cases k <;> rfl
  rw [hbyte, BitVec.extractLsb'_toNat, Nat.shiftRight_eq_div_pow, Nat.pow_mul]

/-- Settles O15: the bytes of `x` stand at offsets 0 to 3 and those of `z` at 4 to 7. -/
theorem packPositionIsLittleEndian : Obligations.PackPositionIsLittleEndian := by
  intro s x z grip
  refine ⟨positionPayload x z grip, exec_packPosition x z grip s, positionPayload_length x z grip, ?x, ?z, rfl⟩
  case x =>
    intro k hk
    rw [positionPayload, List.append_assoc, List.getD_append _ _ _ _ hk, toNat_le32_getD x hk]
  case z =>
    intro k hk
    have hz : 4 + k - (le32 x).length = k := Nat.add_sub_cancel_left 4 k
    rw [positionPayload, List.append_assoc, List.getD_append_right _ _ _ _ (Nat.le_add_right 4 k), hz,
      List.getD_append _ _ _ _ hk, toNat_le32_getD z hk]

end Sys2Proof.Machine
end

section
/-! ## VALIDATE_POSITION (R120) -/

namespace Sys2Proof.Machine

/-- VALIDATE_POSITION completes in every state, and its only effect is its result. -/
theorem exec_validatePosition (x z : Word32) (grip : Byte) (s : State) :
    exec (.validatePosition x z grip) s = .next (s.reply (.violations (positionViolations s.cfg x z grip))) := rfl

/-- A value is in range exactly when both inequalities of R120 hold. -/
theorem inRange_iff (lo v hi : Word32) :
    inRange lo v hi = true ↔ F32.le (f32val lo) (f32val v) = true ∧ F32.le (f32val v) (f32val hi) = true :=
  Bool.and_eq_true_iff

/-- `x` is listed exactly when it is out of its bounds. -/
theorem x_mem_positionViolations_iff (cfg : Config) (x z : Word32) (grip : Byte) :
    PosField.x ∈ positionViolations cfg x z grip ↔ ¬ inRange cfg.minX x cfg.maxX = true := by
  simp [positionViolations]

/-- `z` is listed exactly when it is out of its bounds. -/
theorem z_mem_positionViolations_iff (cfg : Config) (x z : Word32) (grip : Byte) :
    PosField.z ∈ positionViolations cfg x z grip ↔ ¬ inRange cfg.minZ z cfg.maxZ = true := by
  simp [positionViolations]

/-- `grip` is listed exactly when it is neither 0 nor 1. -/
theorem grip_mem_positionViolations_iff (cfg : Config) (x z : Word32) (grip : Byte) :
    PosField.grip ∈ positionViolations cfg x z grip ↔ grip.toNat ≠ 0 ∧ grip.toNat ≠ 1 := by
  simp [positionViolations, ← BitVec.toNat_inj]

/-- A field that is listed only when a test fails is listed once at most. -/
theorem ite_nil_singleton_sublist (p : Prop) [Decidable p] (field : PosField) :
    (if p then [] else [field]).Sublist [field] := by
  split
  · exact List.nil_sublist _
  · exact List.Sublist.refl _

/-- The list keeps the order `x`, `z`, `grip`, each field at most once. -/
theorem positionViolations_sublist (cfg : Config) (x z : Word32) (grip : Byte) :
    (positionViolations cfg x z grip).Sublist [.x, .z, .grip] :=
  ((ite_nil_singleton_sublist _ .x).append (ite_nil_singleton_sublist _ .z)).append
    (ite_nil_singleton_sublist _ .grip)

/-- A command word `11 uuuuuuuu` asks for VALIDATE_POSITION of the fields of the operand word, whatever its low bits. -/
theorem decodeTx_validatePosition {q : Ports} {u : Byte} {ws : List CmdWord} (h : q.txCmd = mkCmd 3 u :: ws) :
    decodeTx q = takeOperand { q with txCmd := ws } fun o => .validatePosition o.x o.z o.grip := by
  simp [decodeTx, h]

/-- The next operation of the TX port is VALIDATE_POSITION when its command word `11 uuuuuuuu` and its operand word
stand there. -/
theorem decode_validatePosition {q : Ports} {u grip : Byte} {x z : Word32} {ws : List CmdWord}
    {os : List OperandWord} (hc : q.txCmd = mkCmd 3 u :: ws) (ho : q.txOperand = mkOperand x z grip :: os) :
    decode .tx q = .ok (.validatePosition x z grip, { q with txCmd := ws, txOperand := os }) := by
  rw [decode, decodeTx_validatePosition hc, takeOperand_cons (q := { q with txCmd := ws }) _ ho, x_mkOperand,
    z_mkOperand, grip_mkOperand]

/-- The command word and the operand word of VALIDATE_POSITION, offered with a turn, run it and leave what was
pending. -/
theorem step_offered_validatePosition (s : State) (u : Byte) (x z : Word32) (grip : Byte) :
    step (s.offered { Ports.empty with
      turns := [.tx], txCmd := [mkCmd 3 u], txOperand := [mkOperand x z grip] }) =
        exec (.validatePosition x z grip) s :=
  step_of_turn (p := .tx) (ps := s.ports.turns) rfl (.inl rfl)
    (decode_validatePosition (u := u) (ws := s.ports.txCmd) (os := s.ports.txOperand) rfl rfl)

/-- Settles O18: the list is `positionViolations`, and `inRange_iff` gives the inequalities of R120. -/
theorem validatePositionListsEveryViolation : Obligations.ValidatePositionListsEveryViolation := by
  intro s x z grip
  refine ⟨positionViolations s.cfg x z grip, exec_validatePosition x z grip s,
    positionViolations_sublist s.cfg x z grip, ?x, ?z, grip_mem_positionViolations_iff s.cfg x z grip,
    fun u => step_offered_validatePosition s u x z grip⟩
  case x => rw [x_mem_positionViolations_iff, inRange_iff]
  case z => rw [z_mem_positionViolations_iff, inRange_iff]

end Sys2Proof.Machine
end

section
/-! ## FEED in a state, pass by pass (R130 to R140) -/

namespace Sys2Proof.Machine

/-- FEED of an accepted chunk commits what the loop makes of the buffer with the whole chunk appended (R130, R131). -/
theorem exec_feed_of_accepts {s : State} {chunk : List Byte} (h : s.accepts chunk = true) :
    exec (.feed chunk) s = .next (s.commitFeed (feed s.cfg.garbageThreshold (s.buf ++ chunk) [])) := by
  rw [← feed_append]
  exact if_pos h

/-- Without the limits of R7 every chunk is accepted. -/
theorem State.Unbounded.accepts {s : State} (h : s.Unbounded) (chunk : List Byte) : s.accepts chunk = true := by
  obtain ⟨hchunk, hbuf, -⟩ := h
  exact accepts_unbounded s chunk hchunk hbuf

/-- Settles O23: without limits the chunk is accepted, and the answer is the loop's stop reason. -/
theorem feedIsTotal : Obligations.FeedIsTotal := by
  intro s chunk hs
  exact ⟨_, _, exec_feed_of_accepts (hs.accepts chunk), rfl, rfl⟩

/-- The commit of a FEED that emitted no frame. -/
theorem State.commitFeed_of_no_frames (s : State) (b : List Byte) (ds : List Diag) (r : StopReason) :
    s.commitFeed ⟨b, [], ds, r⟩ =
      { s with buf := b, out := { s.out with diags := s.out.diags ++ ds, status := s.out.status ++ [r] } } := by
  simp only [State.commitFeed, State.emit_nil]

/-- The commit of a FEED that only waits: the buffer and the stop reason. -/
theorem State.commitFeed_of_wait (s : State) (b : List Byte) (r : StopReason) :
    s.commitFeed ⟨b, [], [], r⟩ = { s with buf := b, out := { s.out with status := s.out.status ++ [r] } } := by
  rw [State.commitFeed_of_no_frames, List.append_nil]

/-- Events in front of a FEED's result may be sent before the rest is committed. -/
theorem State.commitFeed_diags_append (s : State) (b : List Byte) (ds : List Diag) (r : FeedResult) :
    s.commitFeed { r with diags := ds ++ r.diags } =
      ({ s with buf := b, out := { s.out with diags := s.out.diags ++ ds } } : State).commitFeed r := by
  simp only [State.commitFeed, State.emit, List.append_assoc]

/-- Frames in front of a FEED's result may be emitted before the rest is committed. -/
theorem State.commitFeed_frames_append (s : State) (b : List Byte) (fs : List Frame) (r : FeedResult) :
    s.commitFeed { r with frames := fs ++ r.frames } = ({ s.emit fs with buf := b } : State).commitFeed r := by
  simp only [State.commitFeed, State.emit, List.append_assoc]

/-- A FEED goes on with the buffer from offset `k` when the loop's result there, committed after what has been sent so
far, is the whole result. -/
theorem exec_feed_goes_on {s : State} {chunk : List Byte} {k : Nat} {q : Ports} {o : Outputs}
    (hs : s.accepts chunk = true)
    (h : s.commitFeed (feed s.cfg.garbageThreshold (s.buf ++ chunk) []) =
      ({ s with buf := (s.buf ++ chunk).drop k, ports := q, out := o } : State).commitFeed
        (feed s.cfg.garbageThreshold ((s.buf ++ chunk).drop k) [])) :
    exec (.feed chunk) s = exec (.feed []) { s with buf := (s.buf ++ chunk).drop k, ports := q, out := o } := by
  have hle : ((s.buf ++ chunk).drop k).length ≤ s.buf.length + chunk.length := by
    rw [List.length_drop, List.length_append]
    exact Nat.sub_le _ _
  rw [exec_feed_of_accepts hs, exec_feed_of_accepts (accepts_nil hs _ hle q o), h, List.append_nil]

/-- The loop reported `ds` and went on at offset `k`. -/
theorem exec_feed_of_diags {s : State} {chunk : List Byte} {k : Nat} {ds : List Diag} {r : FeedResult}
    (hs : s.accepts chunk = true) (hr : r = feed s.cfg.garbageThreshold ((s.buf ++ chunk).drop k) [])
    (h : feed s.cfg.garbageThreshold (s.buf ++ chunk) [] = { r with diags := ds ++ r.diags }) :
    exec (.feed chunk) s = exec (.feed [])
      { s with buf := (s.buf ++ chunk).drop k, out := { s.out with diags := s.out.diags ++ ds } } := by
  refine exec_feed_goes_on hs ?_
  rw [h, ← hr]
  exact s.commitFeed_diags_append _ ds r

/-- The loop emitted `fs` and went on at offset `k`. -/
theorem exec_feed_of_frames {s : State} {chunk : List Byte} {k : Nat} {fs : List Frame} {r : FeedResult}
    (hs : s.accepts chunk = true) (hr : r = feed s.cfg.garbageThreshold ((s.buf ++ chunk).drop k) [])
    (h : feed s.cfg.garbageThreshold (s.buf ++ chunk) [] = { r with frames := fs ++ r.frames }) :
    exec (.feed chunk) s = exec (.feed []) { s.emit fs with buf := (s.buf ++ chunk).drop k } := by
  refine exec_feed_goes_on hs ?_
  rw [h, ← hr]
  exact s.commitFeed_frames_append _ fs r

end Sys2Proof.Machine
end

section
/-! ## Steps 1 and 2: the header search (R132, R133) -/

namespace Sys2Proof.Machine

/-- Without a header, more bytes than the threshold are all discarded. -/
theorem feed_flush {th : Nat} {b : List Byte} (h : find b header = none) (hlen : th < b.length) :
    feed th b [] = ⟨[], [], [⟨.garbageFlush, b⟩], .flushed⟩ :=
  (feed_noHeader h).trans (if_pos hlen)

/-- Without a header, at most the threshold of bytes wait. -/
theorem feed_idle {th : Nat} {b : List Byte} (h : find b header = none) (hlen : b.length ≤ th) :
    feed th b [] = ⟨b, [], [], .idleNoHeader⟩ :=
  (feed_noHeader h).trans (if_neg (Nat.not_lt.mpr hlen))

/-- The event of step 2: none at offset 0, else one with the bytes before the header. -/
theorem trimEvents_eq (b : List Byte) (i : Nat) :
    trimEvents b i = if i = 0 then [] else [⟨.garbageTrim, b.take i⟩] := by
  cases i <;> rfl

/-- Settles O27: by whether the search finds a header, and without one by the threshold. -/
theorem searchFlushesWaitsOrTrims : Obligations.SearchFlushesWaitsOrTrims := by
  rintro s chunk b hs rfl
  refine ⟨fun hnone hlen => ?flush, fun hnone hlen => ?idle, fun i hi hleast => ⟨?marker, ?trim⟩⟩
  case flush =>
    rw [exec_feed_of_accepts hs, feed_flush ((find_none_iff _).mpr hnone) hlen, State.commitFeed_of_no_frames]
  case idle =>
    rw [exec_feed_of_accepts hs, feed_idle ((find_none_iff _).mpr hnone) hlen, State.commitFeed_of_wait]
  case marker => exact (headerAt_iff _ i).mp hi
  case trim =>
    rw [← trimEvents_eq]
    exact exec_feed_of_diags hs rfl (feed_trim ((find_some_iff _ i).mpr ⟨hi, hleast⟩))

end Sys2Proof.Machine
end

section
/-! ## Steps 3 and 4: partial frames (R134, R135) -/

namespace Sys2Proof.Machine

/-- Settles O28: the loop stops at step 3 or step 4 with the buffer as it is. -/
theorem partialFramesWait : Obligations.PartialFramesWait := by
  rintro s chunk b hs rfl hheader
  have hfind : find (s.buf ++ chunk) header = some 0 := find_eq_zero hheader
  refine ⟨fun hlen => ?min, fun hmin hlen => ?len, rfl, minFrame_le_totalLen _, totalLen_le _⟩
  case min => rw [exec_feed_of_accepts hs, feed_partialMin hfind hlen, State.commitFeed_of_wait]
  case len => rw [exec_feed_of_accepts hs, feed_partialLen hfind hmin hlen, State.commitFeed_of_wait]

end Sys2Proof.Machine
end

section
/-! ## Steps 5 to 8: a candidate is judged (R136 to R139) -/

namespace Sys2Proof.Machine

/-- A wrong footer: the candidate is reported as such, whatever its checksum (R137). -/
theorem settle_of_footer_ne {c : List Byte} (hf : footerBytes c ≠ footer) (r : FeedResult) :
    settle c r = { r with diags := [⟨.corruptFooter, c⟩] ++ r.diags } := by
  have hjudge : judge c = .badFooter := if_pos hf
  simp only [settle, hjudge, List.singleton_append]

/-- A right footer and a wrong checksum: the candidate is reported as such (R138). -/
theorem settle_of_checksum_ne {c : List Byte} (hf : footerBytes c = footer)
    (hc : checksumByte c ≠ sum8 (summedRange c)) (r : FeedResult) :
    settle c r = { r with diags := [⟨.corruptChecksum, c⟩] ++ r.diags } := by
  have hjudge : judge c = .badChecksum := (if_neg (not_not.mpr hf)).trans (if_pos hc.symm)
  simp only [settle, hjudge, List.singleton_append]

/-- Footer and checksum right: the candidate's Frame object is emitted (R139). -/
theorem settle_of_good {c : List Byte} (hf : footerBytes c = footer) (hc : checksumByte c = sum8 (summedRange c))
    (r : FeedResult) : settle c r = { r with frames := [frameOf c] ++ r.frames } := by
  have hjudge : judge c = .good := (if_neg (not_not.mpr hf)).trans (if_neg (not_not.mpr hc.symm))
  simp only [settle, hjudge, List.singleton_append]

/-- The slice of a candidate begins with the length byte of the buffer, so it states the same frame length (R136). -/
theorem totalLen_take_totalLen (b : List Byte) : totalLen (b.take (totalLen b)) = totalLen b := by
  have h3 : 3 < totalLen b := Nat.lt_of_lt_of_le (by decide) (minFrame_le_totalLen b)
  simp only [totalLen, List.getD_eq_getElem?_getD] at h3 ⊢
  rw [List.getElem?_take_of_lt h3]

/-- The payload of a candidate is what the seven other bytes leave (R61, R139). -/
theorem frameOf_of_length_eq {c : List Byte} (h : c.length = totalLen c) :
    frameOf c = ⟨c.getD 2 0, c.getD 3 0, (c.drop 4).take (c.length - 7)⟩ := by
  have hpayload : c.length - 7 = (c.getD 3 0).toNat := h ▸ Nat.add_sub_cancel_left ..
  rw [hpayload, frameOf]

/-- Settles O29: the slice is settled by the two checks, in their order, and the FEED goes on behind it. -/
theorem candidateIsDiscardedOrEmitted : Obligations.CandidateIsDiscardedOrEmitted := by
  rintro s chunk b c n hs rfl hheader - hn hle hc
  have htotal : n = totalLen (s.buf ++ chunk) := hn
  have hlen : n = c.length := by rw [hc, List.length_take_of_le hle]
  have hfeed : feed s.cfg.garbageThreshold (s.buf ++ chunk) [] =
      settle c (feed s.cfg.garbageThreshold ((s.buf ++ chunk).drop n) []) := by
    rw [hc, htotal]
    exact feed_candidate (find_eq_zero hheader) (htotal ▸ hle)
  have hframe : c.length = totalLen c := by rw [← hlen, hc, htotal, totalLen_take_totalLen]
  have hchecksum := checksumByte_eq_sum8_iff c
  subst hlen
  refine ⟨fun hf => ?footer, fun hf hsum => ?checksum, fun hf hsum => ?good⟩
  case footer => exact exec_feed_of_diags hs rfl (hfeed.trans (settle_of_footer_ne hf _))
  case checksum =>
    have hne : checksumByte c ≠ sum8 (summedRange c) := fun h => hsum (hchecksum.mp h).symm
    exact exec_feed_of_diags hs rfl (hfeed.trans (settle_of_checksum_ne hf hne _))
  case good =>
    rw [← frameOf_of_length_eq hframe]
    exact exec_feed_of_frames hs rfl (hfeed.trans (settle_of_good hf (hchecksum.mpr hsum.symm) _))

end Sys2Proof.Machine
end

section
/-! ## UNPACK_POSITION (R175) -/

namespace Sys2Proof.Machine

/-- UNPACK_POSITION completes in every state, and its only effect is its result. -/
theorem exec_unpackPosition (f : Frame) (s : State) :
    exec (.unpackPosition f) s = .next (s.answerUnpack (unpack f)) := rfl

/-- `le32` is the inverse of `unle32` (R9). -/
theorem le32_unle32 (b0 b1 b2 b3 : Byte) : le32 (unle32 b0 b1 b2 b3) = [b0, b1, b2, b3] := by
  simp only [le32, unle32, List.cons.injEq, and_true, ← BitVec.toNat_inj, BitVec.extractLsb'_toNat,
    BitVec.toNat_ofNat, Nat.shiftRight_eq_div_pow]
  omega

/-- The fields of a payload are those whose packing it is: `positionFields` is the inverse of `positionPayload`. -/
theorem positionFields_eq_some_iff {payload : List Byte} {x z : Word32} {grip : Byte} :
    positionFields payload = some (x, z, grip) ↔ payload = positionPayload x z grip := by
  constructor
  · intro h
    unfold positionFields at h
    split at h
    · cases h
      simp only [positionPayload, le32_unle32, List.cons_append, List.nil_append]
    · cases h
  · rintro rfl
    exact positionFields_positionPayload x z grip

/-- Nine bytes are the packing of some position. -/
theorem exists_eq_positionPayload {payload : List Byte} (h : payload.length = 9) :
    ∃ (x z : Word32) (grip : Byte), payload = positionPayload x z grip := by
  obtain ⟨⟨x, z, grip⟩, hfields⟩ := Option.isSome_iff_exists.mp ((positionFields_isSome_iff payload).mpr h)
  exact ⟨x, z, grip, positionFields_eq_some_iff.mp hfields⟩

/-- A frame of another length than a position's has no fields. -/
theorem unpack_of_length_ne {f : Frame} (h : f.length.toNat ≠ posLen) : unpack f = none := if_neg h

/-- A frame of length 9 that carries a packed position has the fields that were packed, whatever its command. -/
theorem unpack_of_positionPayload {f : Frame} {x z : Word32} {grip : Byte} (hlen : f.length.toNat = posLen)
    (hpayload : f.payload = positionPayload x z grip) : unpack f = some ⟨x, z, grip⟩ := by
  rw [unpack, if_pos hlen, hpayload, positionFields_positionPayload, Option.map_some]

/-- The payload of a Frame object is as long as its length byte states (R30). -/
theorem payload_length_of_wf {f : Frame} (h : f.wf = true) : f.payload.length = f.length.toNat := eq_of_beq h

/-- Settles O50: the payload of a Frame object of length 9 is nine bytes, so it is the packing of a position. -/
theorem unpackPositionInvertsPack : Obligations.UnpackPositionInvertsPack := by
  intro s f hf
  refine ⟨fun hlen => ?none, fun hlen => ?fields, fun c x z grip => ?packed⟩
  case none =>
    rw [exec_unpackPosition, unpack_of_length_ne hlen]
    rfl
  case fields =>
    obtain ⟨x, z, grip, hpayload⟩ := exists_eq_positionPayload ((payload_length_of_wf hf).trans hlen)
    refine ⟨x, z, grip, hpayload, ?_⟩
    rw [exec_unpackPosition, unpack_of_positionPayload hlen hpayload]
    rfl
  case packed =>
    rw [exec_unpackPosition, unpack_of_positionPayload rfl rfl]
    rfl

end Sys2Proof.Machine
end

section
/-! ## PUSH (R171) -/

namespace Sys2Proof.Machine

/-- Where the queue has room for one frame more, PUSH completes, and its only effect is the frame at the end. -/
theorem exec_push_of_within {s : State} (h : within (s.fq.length + 1) s.cfg.fqDepth = true) (f : Frame) :
    exec (.push f) s = .next (s.enqueue f) :=
  if_pos h

/-- Settles O45: an unbounded queue always has room, and a finite one while it is shorter than its depth. -/
theorem pushAppendsToTheQueue : Obligations.PushAppendsToTheQueue := by
  rintro s f (hnone | ⟨d, hd, hlt⟩)
  · exact exec_push_of_within (by rw [hnone, within_none]) f
  · exact exec_push_of_within (by rw [hd, within_some]; exact hlt) f

end Sys2Proof.Machine
end

section
/-! ## TRY_POP (R172) -/

namespace Sys2Proof.Machine

/-- TRY_POP completes in every state, with what `dequeue` takes out of the queue as its result. -/
theorem exec_tryPop (s : State) : exec .tryPop s = .next (s.dequeue.2.answerPop s.dequeue.1) := rfl

/-- TRY_POP of an empty queue answers `NONE`, and that is all it does. -/
theorem exec_tryPop_of_nil {s : State} (h : s.fq = []) : exec .tryPop s = .next (s.answerPop none) := by
  rw [exec_tryPop, s.dequeue_of_nil h]

/-- TRY_POP of any other queue answers its first frame and keeps the others. -/
theorem exec_tryPop_of_cons {s : State} {f : Frame} {rest : List Frame} (h : s.fq = f :: rest) :
    exec .tryPop s = .next (({ s with fq := rest } : State).answerPop (some f)) := by
  rw [exec_tryPop, s.dequeue_of_cons f rest h]

/-- A POP strobe of 1 asks for TRY_POP (R75). -/
theorem decode_tryPop {q : Ports} {bs : List (BitVec 1)} (h : q.popStrobe = 1 :: bs) :
    decode .pop q = .ok (.tryPop, { q with popStrobe := bs }) := by
  simp only [decode, h, if_true]

/-- A POP strobe of 1, offered with a turn, runs TRY_POP and leaves what was pending. -/
theorem step_offered_tryPop (s : State) :
    step (s.offered { Ports.empty with turns := [.pop], popStrobe := [0b1] }) = exec .tryPop s :=
  step_of_turn (p := .pop) (ps := s.ports.turns) rfl (.inl rfl) (decode_tryPop (bs := s.ports.popStrobe) rfl)

/-- Settles O46: by whether the queue holds a frame. -/
theorem tryPopTakesTheOldest : Obligations.TryPopTakesTheOldest := fun s =>
  ⟨exec_tryPop_of_nil, fun _ _ => exec_tryPop_of_cons, step_offered_tryPop s⟩

end Sys2Proof.Machine
end

section
/-! ## Which operations fail, and how (R181, R191) -/

namespace Sys2Proof.Machine

/-- The failures: the operations that answer another code than OK in a state, with their answer. -/
inductive TxFailure (s : State) : Instr → TxResult → Prop where
  /-- `InvalidPayload` (R186). -/
  | encode (cmd : Byte) {payload : List Byte} (h : maxPayload < payload.length) :
      TxFailure s (.encode cmd payload) (.invalidPayload payload.length)
  /-- `OutOfRange` (R185). -/
  | encodePosition (cmd : Byte) {x z : Word32} {grip : Byte} (h : positionViolations s.cfg x z grip ≠ []) :
      TxFailure s (.encodePosition cmd x z grip) (.outOfRange (positionViolations s.cfg x z grip))

/-- A failure is its answer, and nothing else happens (R191). -/
theorem TxFailure.exec_eq {s : State} {i : Instr} {r : TxResult} (h : TxFailure s i r) :
    exec i s = .next (s.fail r) := by
  cases h with
  | encode cmd hlen => exact exec_encode_of_lt hlen cmd s
  | encodePosition cmd hv => exact exec_encodePosition_of_violation hv cmd

/-- An operation of the TX port answers once: with code OK, or it is one of the failures. -/
theorem exec_answers_of_portOf_eq_tx {i : Instr} (s : State) (hp : portOf i = .tx) :
    (∃ t r, exec i s = .next t ∧ t.out.txResults = s.out.txResults ++ [r] ∧ r.code = 0) ∨ ∃ r, TxFailure s i r := by
  cases i with
  | frame | framePos | feed | tryPop | reset | push | packPosition | unpackPosition => cases hp
  | csum bytes => exact .inl ⟨_, _, exec_csum bytes s, rfl, rfl⟩
  | validatePosition x z grip => exact .inl ⟨_, _, exec_validatePosition x z grip s, rfl, rfl⟩
  | encode cmd payload =>
    rcases Nat.lt_or_ge maxPayload payload.length with hlt | hle
    · exact .inr ⟨_, .encode cmd hlt⟩
    · exact .inl ⟨_, _, exec_encode_of_le hle cmd s, rfl, rfl⟩
  | encodePosition cmd x z grip =>
    by_cases hv : positionViolations s.cfg x z grip = []
    · have hfits : (positionPayload x z grip).length ≤ maxPayload := by rw [positionPayload_length]; decide
      exact .inl ⟨_, _, (exec_encodePosition_of_valid hv cmd).trans (exec_encode_of_le hfits cmd s), rfl, rfl⟩
    · exact .inr ⟨_, .encodePosition cmd hv⟩

/-- A PUSH that completes has put its frame at the end of the queue, and that is all it does. -/
theorem eq_enqueue_of_exec_push {s t : State} {f : Frame} (h : exec (.push f) s = .next t) : t = s.enqueue f := by
  simp only [exec, execPush] at h
  split at h <;> cases h
  rfl

/-- An operation of another port answers nothing on the TX results (R75). -/
theorem txResults_eq_of_portOf_ne_tx {i : Instr} {s t : State} (h : exec i s = .next t) (hp : portOf i ≠ .tx) :
    t.out.txResults = s.out.txResults := by
  have feeds (hi : isFeed i = true) : t.out.txResults = s.out.txResults := by
    rw [exec_of_isFeed s hi] at h
    obtain ⟨-, hn⟩ | ⟨-, hn⟩ := feedState_cases (chunkOf i) s <;> cases hn.symm.trans h
    rfl
  cases i with
  | frame | framePos | feed => exact feeds rfl
  | encode | encodePosition | csum | validatePosition => exact absurd rfl hp
  | tryPop =>
    cases (exec_tryPop s).symm.trans h
    rw [State.answerPop_out, State.dequeue_out]
  | push f => rw [eq_enqueue_of_exec_push h, State.enqueue_out]
  | reset | packPosition | unpackPosition => cases h; rfl

/-- Whatever completes with one more TX result of another code than OK is one of the failures. -/
theorem txFailure_of_code_ne_zero {i : Instr} {s t : State} {r : TxResult} (h : exec i s = .next t)
    (ht : t.out.txResults = s.out.txResults ++ [r]) (hr : r.code ≠ 0) : TxFailure s i r ∧ t = s.fail r := by
  have answered {r' : TxResult} (h' : t.out.txResults = s.out.txResults ++ [r']) : r' = r :=
    List.singleton_inj.mp (List.append_cancel_left (h'.symm.trans ht))
  by_cases hp : portOf i = .tx
  case neg => simp [txResults_eq_of_portOf_ne_tx h hp] at ht
  obtain ⟨t', r', he, hres, hcode⟩ | ⟨r', hf⟩ := exec_answers_of_portOf_eq_tx s hp
  · cases he.symm.trans h
    exact absurd (answered hres ▸ hcode) hr
  · cases hf.exec_eq.symm.trans h
    obtain rfl := answered rfl
    exact ⟨hf, rfl⟩

end Sys2Proof.Machine
end

section
/-! ## OutOfRange (R185) -/

namespace Sys2Proof.Machine

/-- A mask is 0 only of the empty list: each field has a bit of its own (R122). -/
theorem violationMask_ne_zero {fields : List PosField} (h : fields ≠ []) : violationMask fields ≠ 0 := by
  have bits : ∀ grip z x : Bool, (grip || z || x) = true →
      BitVec.ofBool grip ++ (BitVec.ofBool z ++ BitVec.ofBool x) ≠ (0 : BitVec 3) := by decide
  obtain ⟨field, rest, rfl⟩ := List.exists_cons_of_ne_nil h
  refine bits _ _ _ ?_
  cases field <;> simp

/-- Settles O59: of the failures, only ENCODE_POSITION's answer is `OutOfRange`. -/
theorem onlyEncodePositionAnswersOutOfRange : Obligations.OnlyEncodePositionAnswersOutOfRange := by
  intro s
  refine ⟨fun i t v h ht => ?only, fun cmd x z grip v hlist hv => ?answers⟩
  case only =>
    obtain ⟨hf, rfl⟩ := txFailure_of_code_ne_zero h ht (by decide : (2 : BitVec 2) ≠ 0)
    cases hf with
    | encodePosition cmd hv => exact ⟨cmd, _, _, _, rfl, hv, rfl, rfl⟩
  case answers =>
    subst hlist
    exact ⟨(TxFailure.encodePosition cmd hv).exec_eq, rfl, violationMask_ne_zero hv⟩

end Sys2Proof.Machine
end

section
/-! ## InvalidPayload (R186) -/

namespace Sys2Proof.Machine

/-- Settles O60: of the failures, only ENCODE's answer is `InvalidPayload`. -/
theorem onlyEncodeAnswersInvalidPayload : Obligations.OnlyEncodeAnswersInvalidPayload := by
  intro s
  refine ⟨fun i t n h ht => ?only, fun cmd payload hlen => (TxFailure.encode cmd hlen).exec_eq⟩
  case only =>
    obtain ⟨hf, rfl⟩ := txFailure_of_code_ne_zero h ht (by decide : (1 : BitVec 2) ≠ 0)
    cases hf with
    | encode cmd hlen => exact ⟨cmd, _, rfl, rfl, hlen, rfl⟩

end Sys2Proof.Machine
end

section
/-! ## RESET (R210) -/

namespace Sys2Proof.Machine

/-- RESET completes in every state, with the restarted machine. -/
theorem exec_reset (s : State) : exec .reset s = .next s.restart := rfl

/-- A RESET input of 1 asks for RESET (R75). -/
theorem decode_reset {q : Ports} {bs : List (BitVec 1)} (h : q.resetInput = 1 :: bs) :
    decode .reset q = .ok (.reset, { q with resetInput := bs }) := by
  simp only [decode, h, if_true]

/-- A RESET input of 1, offered with a turn, runs RESET and leaves what was pending. -/
theorem step_offered_reset (s : State) :
    step (s.offered { Ports.empty with turns := [.reset], resetInput := [0b1] }) = exec .reset s :=
  step_of_turn (p := .reset) (ps := s.ports.turns) rfl (.inl rfl) (decode_reset (bs := s.ports.resetInput) rfl)

/-- Settles O51: the next state is `s.restart`, which empties both stores and keeps the constants and the events. -/
theorem resetEmptiesBufferAndQueue : Obligations.ResetEmptiesBufferAndQueue := fun s =>
  ⟨⟨s.restart, exec_reset s, s.restart_buf, s.restart_fq, s.restart_cfg, congrArg Outputs.diags s.restart_out⟩,
    step_offered_reset s⟩

end Sys2Proof.Machine
end

section
/-! ## The bytes of a frame and their fields (R47, R60, R61) -/

namespace Sys2Proof.Machine

/-- The bytes of a frame, one after another. -/
theorem wireBytes_eq_cons (cmd : Byte) (payload : List Byte) (cs f0 f1 : Byte) :
    wireBytes cmd payload cs f0 f1 =
      0x44 :: 0x58 :: cmd :: BitVec.ofNat 8 payload.length :: (payload ++ [cs, f0, f1]) := rfl

/-- A position frame is the frame of the packed position (R70). -/
theorem wirePosBytes_eq (cmd : Byte) (x z : Word32) (grip cs : Byte) :
    wirePosBytes cmd x z grip cs = wireBytes cmd (positionPayload x z grip) cs 0x58 0x44 := rfl

/-- A packed position fits the length byte. -/
theorem positionPayload_length_le (x z : Word32) (grip : Byte) : (positionPayload x z grip).length ≤ maxPayload := by
  rw [positionPayload_length]
  decide

/-- The length byte of a payload that fits it is the payload's length. -/
theorem toNat_ofNat_length {payload : List Byte} (h : payload.length ≤ maxPayload) :
    (BitVec.ofNat 8 payload.length).toNat = payload.length := by
  rw [BitVec.toNat_ofNat]
  exact Nat.mod_eq_of_lt (Nat.lt_succ_of_le h)

section
variable {payload : List Byte} (h : payload.length ≤ maxPayload) (cmd cs f0 f1 : Byte)
include h

theorem totalLen_wireBytes : totalLen (wireBytes cmd payload cs f0 f1) = 7 + payload.length := by
  rw [totalLen, wireBytes_eq_cons]
  exact congrArg (7 + ·) (toNat_ofNat_length h)

theorem frameOf_wireBytes :
    frameOf (wireBytes cmd payload cs f0 f1) = ⟨cmd, BitVec.ofNat 8 payload.length, payload⟩ := by
  simp only [frameOf, wireBytes_eq_cons, List.getD_cons_succ, List.getD_cons_zero, List.drop_succ_cons,
    List.drop_zero, toNat_ofNat_length h, List.take_left']

theorem isCandidate_wireBytes : isCandidate (wireBytes cmd payload cs f0 f1) = true := by
  simp only [isCandidate, totalLen_wireBytes h, wireBytes_length, Bool.and_eq_true, decide_eq_true_eq, beq_iff_eq]
  exact ⟨⟨Nat.le_add_right 7 _, rfl⟩, trivial⟩

end

theorem footerBytes_wireBytes (cmd : Byte) (payload : List Byte) (cs f0 f1 : Byte) :
    footerBytes (wireBytes cmd payload cs f0 f1) = [f0, f1] := by
  have hsplit : wireBytes cmd payload cs f0 f1 = (header ++ [cmd, BitVec.ofNat 8 payload.length] ++ payload ++ [cs]) ++
      [f0, f1] := by simp [wireBytes]
  rw [footerBytes, hsplit, List.length_append]
  exact List.drop_left

theorem checksumByte_wireBytes (cmd : Byte) (payload : List Byte) (cs f0 f1 : Byte) :
    checksumByte (wireBytes cmd payload cs f0 f1) = cs := by
  have hoffset : (wireBytes cmd payload cs f0 f1).length - 3 =
      (header ++ [cmd, BitVec.ofNat 8 payload.length] ++ payload).length := by
    rw [wireBytes, List.length_append]
    rfl
  rw [checksumByte, hoffset, wireBytes, List.getD_append_right _ _ _ _ (Nat.le_refl _), Nat.sub_self]
  rfl

theorem summedRange_wireBytes (cmd : Byte) (payload : List Byte) (cs f0 f1 : Byte) :
    summedRange (wireBytes cmd payload cs f0 f1) = [cmd, BitVec.ofNat 8 payload.length] ++ payload := by
  have hlen : (wireBytes cmd payload cs f0 f1).length - 5 =
      ([cmd, BitVec.ofNat 8 payload.length] ++ payload).length := by
    rw [wireBytes_length, List.length_append, List.length_cons, List.length_singleton]
    omega
  rw [summedRange, hlen]
  exact List.take_left

/-- Three bytes behind the first `n` are all that is left of `n + 3`. -/
theorem exists_append_three {l : List Byte} {n : Nat} (h : l.length = n + 3) :
    ∃ (p : List Byte) (cs f0 f1 : Byte), p.length = n ∧ l = p ++ [cs, f0, f1] := by
  have hlen : (l.drop n).length = 3 := by rw [List.length_drop, h, Nat.add_sub_cancel_left]
  obtain ⟨cs, f0, f1, hdrop⟩ := List.length_eq_three.mp hlen
  refine ⟨l.take n, cs, f0, f1, List.length_take_of_le (h ▸ Nat.le_add_right n 3), ?_⟩
  rw [← hdrop, List.take_append_drop]

/-- What has a header in front and, behind the length byte, as many bytes as it states and three more, is a frame's
bytes. -/
theorem exists_eq_wireBytes {cmd len : Byte} {rest : List Byte} (h : rest.length = len.toNat + 3) :
    ∃ (payload : List Byte) (cs f0 f1 : Byte), payload.length ≤ maxPayload ∧
      0x44 :: 0x58 :: cmd :: len :: rest = wireBytes cmd payload cs f0 f1 := by
  obtain ⟨payload, cs, f0, f1, hlen, rfl⟩ := exists_append_three h
  refine ⟨payload, cs, f0, f1, hlen ▸ Nat.le_of_lt_succ len.isLt, ?_⟩
  rw [wireBytes_eq_cons, hlen, BitVec.ofNat_toNat, BitVec.setWidth_eq]

/-- The strings of the shape of R60 and R61 are the frames' bytes, with any checksum and any last two bytes. -/
theorem isCandidate_iff (c : List Byte) :
    isCandidate c = true ↔ ∃ (cmd : Byte) (payload : List Byte) (cs f0 f1 : Byte), payload.length ≤ maxPayload ∧
      c = wireBytes cmd payload cs f0 f1 := by
  constructor
  · intro h
    simp only [isCandidate, Bool.and_eq_true, decide_eq_true_eq, beq_iff_eq] at h
    obtain ⟨⟨hmin, hheader⟩, hlen⟩ := h
    match c, hmin with
    | h0 :: h1 :: cmd :: len :: rest, _ =>
      obtain ⟨rfl, rfl⟩ : h0 = 0x44 ∧ h1 = 0x58 := by simpa [header] using hheader
      have hrest : rest.length = len.toNat + 3 := by
        have : rest.length + 4 = 7 + len.toNat := hlen
        omega
      exact ⟨cmd, exists_eq_wireBytes hrest⟩
  · rintro ⟨cmd, payload, cs, f0, f1, h, rfl⟩
    exact isCandidate_wireBytes h cmd cs f0 f1

end Sys2Proof.Machine
end

section
/-! ## Link reads (R178, log 4, log 20) -/

namespace Sys2Proof.Machine

/-- A position frame's payload is nine bytes, so it is the packing of a position, and its last two bytes are the footer
(R70). -/
theorem isPositionShape_iff {payload : List Byte} {f0 f1 : Byte} :
    isPositionShape payload f0 f1 = true ↔
      (∃ (x z : Word32) (grip : Byte), payload = positionPayload x z grip) ∧ f0 = 0x58 ∧ f1 = 0x44 := by
  simp only [isPositionShape, Bool.and_eq_true, beq_iff_eq, footer, List.cons.injEq, and_true]
  refine and_congr_left fun _ => ⟨fun h => exists_eq_positionPayload h, ?_⟩
  rintro ⟨x, z, grip, rfl⟩
  exact positionPayload_length x z grip

/-- A frame of a packed position with the footer in place is read as FRAME.POS. -/
theorem classify_positionPayload (cmd : Byte) (x z : Word32) (grip cs : Byte) :
    classify cmd (positionPayload x z grip) cs 0x58 0x44 = .framePos cmd x z grip cs := by
  rw [classify, positionFields_positionPayload]
  rfl

/-- Any other frame is read as FRAME. -/
theorem classify_of_not_isPositionShape {payload : List Byte} {f0 f1 : Byte}
    (h : isPositionShape payload f0 f1 = false) (cmd cs : Byte) :
    classify cmd payload cs f0 f1 = .frame cmd payload cs f0 f1 := by
  unfold classify
  split
  case h_2 => rfl
  case h_1 x z grip hfields =>
    refine if_neg fun hfooter => ?_
    have hshape : isPositionShape payload f0 f1 = true :=
      isPositionShape_iff.mpr ⟨⟨x, z, grip, positionFields_eq_some_iff.mp hfields⟩, by simpa [footer] using hfooter⟩
    exact Bool.false_ne_true (h.symm.trans hshape)

/-- A frame's bytes are read as a WIRE row. -/
theorem decodeRead_wireBytes {payload : List Byte} (h : payload.length ≤ maxPayload) (cmd cs f0 f1 : Byte) :
    decodeRead (wireBytes cmd payload cs f0 f1) = classify cmd payload cs f0 f1 := by
  have hlen := toNat_ofNat_length h
  rw [wireBytes_eq_cons]
  simp only [decodeRead, hlen, List.drop_left, List.take_left, List.length_append]
  exact if_pos ⟨rfl, rfl⟩

/-- Any other bytes are a chunk. -/
theorem decodeRead_of_not_isCandidate {bytes : List Byte} (h : isCandidate bytes = false) :
    decodeRead bytes = .feed bytes := by
  unfold decodeRead
  split
  case h_2 => rfl
  case h_1 h0 h1 cmd len rest =>
    refine if_neg fun ⟨hheader, hlen⟩ => ?_
    obtain ⟨rfl, rfl⟩ : h0 = 0x44 ∧ h1 = 0x58 := by simpa [header] using hheader
    have hshape := (isCandidate_iff _).mpr ⟨cmd, exists_eq_wireBytes hlen⟩
    exact Bool.false_ne_true (h.symm.trans hshape)

/-- Settles O2: a frame's bytes are read as FRAME.POS exactly where they have that row's shape. -/
theorem linkReadsAreWireRowsOrChunks : Obligations.LinkReadsAreWireRowsOrChunks := by
  refine fun bytes => ⟨fun h => ?row, decodeRead_of_not_isCandidate⟩
  case row =>
    obtain ⟨cmd, payload, cs, f0, f1, hlen, rfl⟩ := (isCandidate_iff bytes).mp h
    rw [decodeRead_wireBytes hlen]
    cases hshape : isPositionShape payload f0 f1 with
    | true =>
      obtain ⟨⟨x, z, grip, rfl⟩, rfl, rfl⟩ := isPositionShape_iff.mp hshape
      rw [classify_positionPayload]
      exact ⟨rfl, rfl⟩
    | false =>
      rw [classify_of_not_isPositionShape hshape]
      refine ⟨?_, rfl⟩
      rw [Instr.wf, hshape, decide_eq_true hlen]
      rfl

end Sys2Proof.Machine
end

section
/-! ## The decoder reads back what the encoder writes (R75, R76) -/

namespace Sys2Proof.Machine

/-- The chunk in front of the RX beats is read whole, and what follows it stays. -/
theorem decode_feed {q : Ports} {chunk : List Byte} {rest : List Beat} (h : q.rxBeats = encodeStream chunk ++ rest) :
    decode .rx q = .ok (.feed chunk, { q with rxBeats := rest }) := by
  have hstream := decodeStream_encodeStream chunk rest
  obtain ⟨b, bs, hcons⟩ := List.exists_cons_of_ne_nil (encodeStream_ne_nil chunk)
  rw [hcons, List.cons_append] at h hstream
  simp only [decode, decodeRx, h, hstream]

/-- The read in front of the link is taken whole. -/
theorem decode_link {q : Ports} {bytes : List Byte} {rest : List (List Byte)} (h : q.link = bytes :: rest) :
    decode .link q = .ok (decodeRead bytes, { q with link := rest }) := by
  simp only [decode, h]

/-- The request in front at the direct port is taken, when what it asks for can be done. -/
theorem decode_direct {q : Ports} {d : Direct} {rest : List Direct} {i : Instr} (h : q.direct = d :: rest)
    (hd : decodeDirect d = .ok i) : decode .direct q = .ok (i, { q with direct := rest }) := by
  simp only [decode, h, hd]

/-- The Frame object in front of the FRAME channel is taken to be pushed. -/
theorem decode_push {q : Ports} {f : Frame} {rest : List Frame} (hf : q.frames = f :: rest) (hw : f.wf = true) :
    decode .push q = .ok (.push f, { q with frames := rest }) :=
  decodePush_cons hf hw

/-- The two conditions on a FRAME row's operands. -/
theorem wf_frame {cmd : Byte} {payload : List Byte} {cs f0 f1 : Byte}
    (h : (Instr.frame cmd payload cs f0 f1).wf = true) :
    payload.length ≤ maxPayload ∧ isPositionShape payload f0 f1 = false := by
  simpa only [Instr.wf, Bool.and_eq_true, decide_eq_true_eq, Bool.not_eq_true'] using h

/-- Settles O1: row by row, by what is written at the row's own port. -/
theorem decodeReadsBackEncodedWords : Obligations.DecodeReadsBackEncodedWords := by
  intro i q hw
  cases i with
  | frame cmd payload cs f0 f1 =>
    obtain ⟨hlen, hshape⟩ := wf_frame hw
    refine (decode_link rfl).trans ?_
    rw [decodeRead_wireBytes hlen, classify_of_not_isPositionShape hshape]
    rfl
  | framePos cmd x z grip cs =>
    refine (decode_link rfl).trans ?_
    rw [wirePosBytes_eq, decodeRead_wireBytes (positionPayload_length_le x z grip), classify_positionPayload]
    rfl
  | feed chunk => exact decode_feed rfl
  | encode cmd payload => exact decode_encode rfl rfl
  | encodePosition cmd x z grip => exact decode_encodePosition rfl rfl
  | csum bytes => exact decode_csum (u := 0) rfl rfl
  | validatePosition x z grip => exact decode_validatePosition (u := 0) rfl rfl
  | tryPop => exact decode_tryPop rfl
  | reset => exact decode_reset rfl
  | push f => exact decode_push rfl hw
  | packPosition x z grip => exact decode_direct rfl rfl
  | unpackPosition f => exact decode_direct rfl (if_pos hw)

end Sys2Proof.Machine
end

section
/-! ## Encoded frames (41_encoder.md) -/

namespace Sys2Proof.Machine

/-- An encoded frame is valid (R62): its checksum byte is the sum of the bytes the checksum covers. -/
theorem validFrame_buildFrame (cmd : Byte) {payload : List Byte} (h : payload.length ≤ maxPayload) :
    validFrame (buildFrame cmd payload) = true := by
  rw [buildFrame_eq, validFrame_iff, wireBytes_length, totalLen_wireBytes h, footerBytes_wireBytes,
    checksumByte_wireBytes, summedRange_wireBytes]
  exact ⟨Nat.le_add_right 7 _, rfl, rfl, rfl, rfl⟩

/-- The Frame object of an encoded frame. -/
theorem frameOf_buildFrame (cmd : Byte) {payload : List Byte} (h : payload.length ≤ maxPayload) :
    frameOf (buildFrame cmd payload) = ⟨cmd, BitVec.ofNat 8 payload.length, payload⟩ := by
  rw [buildFrame_eq, frameOf_wireBytes h]

/-- Settles O12: the frame determines its Frame object, and that the command and the payload. -/
theorem encodedFramesAreValidAndInjective : Obligations.EncodedFramesAreValidAndInjective := by
  intro cmd payload h
  refine ⟨validFrame_buildFrame cmd h, buildFrame_length cmd payload, rfl,
    congrArg some (toNat_ofNat_length h), ?payload, ?injective⟩
  case payload =>
    rw [buildFrame_eq, wireBytes_eq_cons]
    exact List.take_left
  case injective =>
    intro cmd' payload' h' heq
    have hframe := congrArg frameOf heq
    rw [frameOf_buildFrame cmd h, frameOf_buildFrame cmd' h'] at hframe
    exact ⟨congrArg Frame.cmd hframe, congrArg Frame.payload hframe⟩

end Sys2Proof.Machine
end

section
/-! ## TX byte beats (R75, R108) -/

namespace Sys2Proof.Machine

@[simp] theorem byte_mkTxBeat (last : Bool) (d : Byte) : (mkTxBeat last d).extractLsb' 0 8 = d :=
  BitVec.extractLsb'_append_eq_right

@[simp] theorem last_mkTxBeat (last : Bool) (d : Byte) : (mkTxBeat last d).getLsbD 8 = last := by
  rw [mkTxBeat, BitVec.getLsbD_append]
  exact BitVec.getLsbD_ofBool last 0

/-- There is one beat for each byte. -/
theorem frameBeats_length (bytes : List Byte) : (frameBeats bytes).length = bytes.length := by
  induction bytes using frameBeats.induct with
  | case1 => rfl
  | case2 d => rfl
  | case3 d d' ds ih => rw [frameBeats, List.length_cons, ih, List.length_cons, List.length_cons, List.length_cons]

/-- The beat at an offset carries the byte there, and `l` says whether it is the last. -/
theorem getElem?_frameBeats (bytes : List Byte) (i : Nat) :
    (frameBeats bytes)[i]? = bytes[i]?.map (mkTxBeat (decide (i + 1 = bytes.length))) := by
  induction bytes using frameBeats.induct generalizing i with
  | case1 => rfl
  | case2 d => cases i <;> rfl
  | case3 d d' ds ih =>
    cases i with
    | zero => rfl
    | succ i => simp only [frameBeats, List.getElem?_cons_succ, ih, List.length_cons, Nat.add_right_cancel_iff]

/-- Settles O13: `getElem?_frameBeats`, field by field. -/
theorem txBeatsMarkTheLastByteOnly : Obligations.TxBeatsMarkTheLastByteOnly := by
  refine fun bytes => ⟨frameBeats_length bytes, fun i h =>
    ⟨mkTxBeat (decide (i + 1 = bytes.length)) bytes[i], ?beat, byte_mkTxBeat _ _, ?last⟩⟩
  case beat => rw [getElem?_frameBeats, List.getElem?_eq_getElem h, Option.map_some]
  case last => rw [last_mkTxBeat, decide_eq_true_iff]

end Sys2Proof.Machine
end

section
/-! ## What the transmit path does to a state (R51) -/

namespace Sys2Proof.Machine

/-- What an operation of the transmit path puts on the output channels. -/
structure Sent where
  results : List TxResult
  bytes : List TxBeat
  packed : List (List Byte)

/-- The state once that has left. -/
def State.send (s : State) (e : Sent) : State :=
  { s with out := { s.out with
    txResults := s.out.txResults ++ e.results
    txBytes := s.out.txBytes ++ e.bytes
    packed := s.out.packed ++ e.packed } }

theorem State.reply_eq_send (s : State) (r : TxResult) : s.reply r = s.send ⟨[r], [], []⟩ := by
  simp only [State.reply, State.send, List.append_nil]

theorem State.transmit_reply_eq_send (s : State) (f : List Byte) (r : TxResult) :
    (s.transmit f).reply r = s.send ⟨[r], frameBeats f, []⟩ := by
  simp only [State.reply, State.transmit, State.send, List.append_nil]

theorem State.answerPack_eq_send (s : State) (p : List Byte) : s.answerPack p = s.send ⟨[], [], [p]⟩ := by
  simp only [State.answerPack, State.send, List.append_nil]

/-- What was sent is whole valid frames, one for each success (R102, R108). -/
def Sent.Whole (e : Sent) : Prop :=
  ∃ fs : List (List Byte), (∀ f ∈ fs, validFrame f = true) ∧ e.bytes = (fs.map frameBeats).flatten ∧
    fs.length = e.results.count .encoded

/-- Results that are no success, and not a byte. -/
theorem Sent.whole_of_no_bytes {rs : List TxResult} (h : rs.count .encoded = 0) (ps : List (List Byte)) :
    Sent.Whole ⟨rs, [], ps⟩ :=
  ⟨[], List.forall_mem_nil _, rfl, h.symm⟩

/-- ENCODE sends whole frames, the same in every state. -/
theorem exec_encode_sends (cmd : Byte) (payload : List Byte) :
    ∃ e : Sent, e.Whole ∧ ∀ s, exec (.encode cmd payload) s = .next (s.send e) := by
  rcases Nat.lt_or_ge maxPayload payload.length with hlt | hle
  · refine ⟨_, Sent.whole_of_no_bytes (rs := [.invalidPayload payload.length]) rfl [], fun s => ?_⟩
    rw [exec_encode_of_lt hlt, State.fail, State.reply_eq_send]
  · refine ⟨⟨[.encoded], frameBeats (buildFrame cmd payload), []⟩,
      ⟨[buildFrame cmd payload], List.forall_mem_singleton.mpr (validFrame_buildFrame cmd hle),
        (List.flatten_singleton).symm, rfl⟩, fun s => ?_⟩
    rw [exec_encode_of_le hle, State.transmit_reply_eq_send]

/-- An operation of the transmit path completes in every state, sends whole frames and does nothing else; what it sends
depends on the constants only. -/
theorem exec_transmit_sends {i : Instr} (hi : isTransmit i = true) (cfg : Config) :
    ∃ e : Sent, e.Whole ∧ ∀ s : State, s.cfg = cfg → exec i s = .next (s.send e) := by
  cases i with
  | frame | framePos | feed | tryPop | reset | push | unpackPosition => cases hi
  | csum bytes => exact ⟨_, Sent.whole_of_no_bytes rfl [], fun s _ => congrArg _ (s.reply_eq_send _)⟩
  | packPosition x z grip => exact ⟨_, Sent.whole_of_no_bytes rfl _, fun s _ => congrArg _ (s.answerPack_eq_send _)⟩
  | validatePosition x z grip =>
    refine ⟨_, Sent.whole_of_no_bytes (rs := [.violations (positionViolations cfg x z grip)]) rfl [], fun s hs => ?_⟩
    rw [exec_validatePosition, hs, State.reply_eq_send]
  | encode cmd payload =>
    obtain ⟨e, he, hexec⟩ := exec_encode_sends cmd payload
    exact ⟨e, he, fun s _ => hexec s⟩
  | encodePosition cmd x z grip =>
    by_cases hv : positionViolations cfg x z grip = []
    · obtain ⟨e, he, hexec⟩ := exec_encode_sends cmd (positionPayload x z grip)
      exact ⟨e, he, fun s hs => (exec_encodePosition_of_valid (hs ▸ hv) cmd).trans (hexec s)⟩
    · refine ⟨_, Sent.whole_of_no_bytes (rs := [.outOfRange (positionViolations cfg x z grip)]) rfl [],
        fun s hs => ?_⟩
      rw [exec_encodePosition_of_violation (hs ▸ hv), hs, State.fail, State.reply_eq_send]

end Sys2Proof.Machine
end

section
/-! ## What an instruction that completes does, and what a step that completes does -/

namespace Sys2Proof.Machine

/-- An instruction completes in a state with a next state: the six ways. -/
inductive Completes (s : State) : Instr → State → Prop where
  /-- FEED and the WIRE rows. -/
  | feed {i : Instr} (hi : isFeed i = true) (ha : s.accepts (chunkOf i) = true) :
      Completes s i (s.commitFeed (feed s.cfg.garbageThreshold (s.buf ++ chunkOf i) []))
  /-- The transmit path. -/
  | transmit {i : Instr} (hi : isTransmit i = true) {e : Sent} (he : e.Whole) : Completes s i (s.send e)
  | tryPop : Completes s .tryPop (s.dequeue.2.answerPop s.dequeue.1)
  | reset : Completes s .reset s.restart
  | push (f : Frame) (hw : within (s.fq.length + 1) s.cfg.fqDepth = true) : Completes s (.push f) (s.enqueue f)
  | unpackPosition (f : Frame) : Completes s (.unpackPosition f) (s.answerUnpack (unpack f))

/-- A FEED or WIRE row that completes was accepted, and commits what the loop makes of the buffer and the chunk. -/
theorem eq_commitFeed_of_exec {i : Instr} {s t : State} (hi : isFeed i = true) (h : exec i s = .next t) :
    s.accepts (chunkOf i) = true ∧ t = s.commitFeed (feed s.cfg.garbageThreshold (s.buf ++ chunkOf i) []) := by
  rw [exec_of_isFeed s hi] at h
  obtain ⟨ha, hn⟩ | ⟨-, hn⟩ := feedState_cases (chunkOf i) s <;> cases hn.symm.trans h
  rw [feed_append]
  exact ⟨ha, rfl⟩

theorem completes_of_isFeed {i : Instr} {s t : State} (hi : isFeed i = true) (h : exec i s = .next t) :
    Completes s i t := by
  obtain ⟨ha, rfl⟩ := eq_commitFeed_of_exec hi h
  exact .feed hi ha

/-- An operation of the transmit path that completes has sent something. -/
theorem completes_of_isTransmit {i : Instr} {s t : State} (hi : isTransmit i = true) (h : exec i s = .next t) :
    Completes s i t := by
  obtain ⟨e, he, hexec⟩ := exec_transmit_sends hi s.cfg
  cases (hexec s rfl).symm.trans h
  exact .transmit hi he

/-- A PUSH that completes found room. -/
theorem completes_of_push {f : Frame} {s t : State} (h : exec (.push f) s = .next t) : Completes s (.push f) t := by
  simp only [exec, execPush] at h
  split at h <;> cases h
  exact .push f ‹_›

/-- There are no other ways. -/
theorem completes_of_exec {i : Instr} {s t : State} (h : exec i s = .next t) : Completes s i t := by
  cases i with
  | frame | framePos | feed => exact completes_of_isFeed rfl h
  | encode | encodePosition | csum | validatePosition | packPosition => exact completes_of_isTransmit rfl h
  | push f => exact completes_of_push h
  | tryPop => cases (exec_tryPop s).symm.trans h; exact .tryPop
  | reset => cases (exec_reset s).symm.trans h; exact .reset
  | unpackPosition f => cases (exec_unpackPosition f s).symm.trans h; exact .unpackPosition f

end Sys2Proof.Machine
end

section
/-! ## Whole frames on the TX byte channel (R102, R108) -/

namespace Sys2Proof.Machine

/-- The property is one of the two TX channels alone. -/
theorem State.WholeFramesOnTx.of_eq {s t : State} (h : s.WholeFramesOnTx) (hb : t.out.txBytes = s.out.txBytes)
    (hr : t.out.txResults = s.out.txResults) : t.WholeFramesOnTx := by
  rw [State.WholeFramesOnTx, hb, hr]
  exact h

/-- Whole frames behind whole frames are whole frames. -/
theorem State.WholeFramesOnTx.send {s : State} (h : s.WholeFramesOnTx) {e : Sent} (he : e.Whole) :
    (s.send e).WholeFramesOnTx := by
  obtain ⟨fs, hvalid, hbytes, hcount⟩ := h
  obtain ⟨gs, hvalid', hbytes', hcount'⟩ := he
  refine ⟨fs ++ gs, List.forall_mem_append.mpr ⟨hvalid, hvalid'⟩, ?bytes, ?count⟩
  case bytes => rw [List.map_append, List.flatten_append, ← hbytes, ← hbytes']; rfl
  case count => rw [List.length_append, hcount, hcount', ← List.count_append]; rfl

/-- Every instruction that completes keeps the property. -/
theorem Completes.wholeFramesOnTx {s t : State} {i : Instr} (h : Completes s i t) (hs : s.WholeFramesOnTx) :
    t.WholeFramesOnTx := by
  cases h with
  | transmit _ he => exact hs.send he
  | feed | reset | push | unpackPosition => exact hs.of_eq rfl rfl
  | tryPop =>
    have hs' : s.dequeue.2.WholeFramesOnTx := hs.of_eq (by rw [State.dequeue_out]) (by rw [State.dequeue_out])
    exact hs'.of_eq rfl rfl

/-- Settles O14: a step runs an instruction in the state with other words pending, or only takes words off. -/
theorem txChannelCarriesWholeFramesOnly : Obligations.TxChannelCarriesWholeFramesOnly := by
  intro s t hs h
  obtain ⟨p, pending, q, i, -, -, hexec⟩ | ⟨q, rfl, -⟩ := step_cases h
  · exact (completes_of_exec hexec).wholeFramesOnTx (hs.of_eq rfl rfl)
  · exact hs.of_eq rfl rfl

end Sys2Proof.Machine
end

section
/-! ## How a FEED ends (R145) -/

namespace Sys2Proof.Machine

@[simp] theorem settle_buf (c : List Byte) (r : FeedResult) : (settle c r).buf = r.buf := by
  unfold settle; cases judge c <;> rfl

@[simp] theorem settle_stop (c : List Byte) (r : FeedResult) : (settle c r).stop = r.stop := by
  unfold settle; cases judge c <;> rfl

/-- What a stop reason says of the buffer that is left. -/
def Stopped (th : Nat) (b : List Byte) : StopReason → Prop
  | .idleNoHeader => BufferQ0 th b
  | .flushed => b = []
  | .partialMin => BufferQ1 b
  | .partialLen => BufferQ2 b

/-- A header found at offset 0 is what the buffer begins with. -/
theorem take_of_find_zero {b : List Byte} (h : find b header = some 0) : b.take 2 = header := find_some_take h

theorem noHeader_stopped {th : Nat} {b : List Byte} (h : find b header = none) :
    Stopped th (noHeader th b).buf (noHeader th b).stop := by
  rcases Nat.lt_or_ge th b.length with hlt | hle
  · rw [noHeader, if_pos hlt]; rfl
  · rw [noHeader, if_neg (Nat.not_lt.mpr hle)]; exact ⟨h, hle⟩

/-- Every FEED ends in one of the four ways. -/
theorem feed_stopped (th : Nat) (b : List Byte) : Stopped th (feed th b []).buf (feed th b []).stop := by
  refine feed_induction (P := fun _ r => Stopped th r.buf r.stop) ?noHeader ?trim ?partialMin ?partialLen ?candidate b
  case noHeader => exact fun b h => noHeader_stopped h
  case trim => exact fun b i r _ _ ih => ih
  case partialMin => exact fun b h hlen => ⟨take_of_find_zero h, hlen⟩
  case partialLen => exact fun b h hmin hlen => ⟨take_of_find_zero h, hmin, hlen⟩
  case candidate => intro b r _ _ ih; rwa [settle_buf, settle_stop]

/-- The empty buffer is in Q0 at every threshold. -/
theorem bufferQ0_nil (th : Nat) : BufferQ0 th [] := ⟨rfl, Nat.zero_le th⟩

/-- Q0 holds no header, so it does not begin with one. -/
theorem BufferQ0.take_ne {th : Nat} {b : List Byte} (h : BufferQ0 th b) : b.take 2 ≠ header := fun hheader =>
  nomatch h.1.symm.trans (find_eq_zero hheader)

theorem BufferQ1.not_bufferQ2 {b : List Byte} (h : BufferQ1 b) : ¬ BufferQ2 b := fun h2 =>
  Nat.not_lt.mpr h2.2.1 h.2

/-- Each end leaves a buffer in one of the three states. -/
theorem Stopped.bufferInv {th : Nat} {b : List Byte} {r : StopReason} (h : Stopped th b r) : BufferInv th b := by
  cases r with
  | idleNoHeader => exact .inl h
  | flushed => exact .inl (h.symm ▸ bufferQ0_nil th)
  | partialMin => exact .inr (.inl h)
  | partialLen => exact .inr (.inr h)

/-- Of the three states at most one holds. -/
theorem BufferInv.exactly_one {th : Nat} {b : List Byte} (h : BufferInv th b) :
    (BufferQ0 th b ∧ ¬ BufferQ1 b ∧ ¬ BufferQ2 b) ∨ (¬ BufferQ0 th b ∧ BufferQ1 b ∧ ¬ BufferQ2 b) ∨
      (¬ BufferQ0 th b ∧ ¬ BufferQ1 b ∧ BufferQ2 b) := by
  rcases h with h | h | h
  · exact .inl ⟨h, fun h1 => h.take_ne h1.1, fun h2 => h.take_ne h2.1⟩
  · exact .inr (.inl ⟨fun h0 => h0.take_ne h.1, h, h.not_bufferQ2⟩)
  · exact .inr (.inr ⟨fun h0 => h0.take_ne h.1, fun h1 => h1.not_bufferQ2 h, h⟩)

/-- Settles O31: `feed_stopped`, read by stop reason. -/
theorem feedLeavesOneOfThreeBuffers : Obligations.FeedLeavesOneOfThreeBuffers := by
  rintro th buf chunk r rfl
  rw [feed_append]
  have hstopped := feed_stopped th (buf ++ chunk)
  refine ⟨hstopped.bufferInv.exactly_one, fun h => ?idle, fun h => ?flushed, fun h => ?min, fun h => ?len⟩ <;>
    rw [h] at hstopped
  case flushed => exact ⟨hstopped.symm ▸ bufferQ0_nil th, hstopped⟩
  all_goals exact hstopped

end Sys2Proof.Machine
end

section
/-! ## What a FEED takes out of the buffer (R136, R139) -/

namespace Sys2Proof.Machine

/-- The slice of step 5 has a frame's shape. -/
theorem isCandidate_take_totalLen {b : List Byte} (h : find b header = some 0) (hlen : totalLen b ≤ b.length) :
    isCandidate (b.take (totalLen b)) = true := by
  have hmin := minFrame_le_totalLen b
  simp only [isCandidate, Bool.and_eq_true, decide_eq_true_eq, beq_iff_eq, totalLen_take_totalLen,
    List.length_take_of_le hlen, List.take_take, Nat.min_eq_left (Nat.le_trans (by decide : 2 ≤ 7) hmin)]
  exact ⟨⟨hmin, take_of_find_zero h⟩, trivial⟩

/-- What is read out of a string of a frame's shape is a Frame object (R30). -/
theorem wf_frameOf {c : List Byte} (h : isCandidate c = true) : (frameOf c).wf = true := by
  obtain ⟨cmd, payload, cs, f0, f1, hlen, rfl⟩ := (isCandidate_iff c).mp h
  rw [frameOf_wireBytes hlen, Frame.wf, toNat_ofNat_length hlen, beq_self_eq_true]

/-- A candidate gives its own Frame object at most. -/
theorem mem_settle_frames {c : List Byte} {r : FeedResult} {f : Frame} (h : f ∈ (settle c r).frames) :
    f = frameOf c ∨ f ∈ r.frames := by
  unfold settle at h
  cases hj : judge c <;> rw [hj] at h
  case good => exact List.mem_cons.mp h
  all_goals exact .inr h

theorem noHeader_frames (th : Nat) (b : List Byte) : (noHeader th b).frames = [] := by
  unfold noHeader; split <;> rfl

/-- A FEED emits Frame objects only. -/
theorem feed_frames_wf (th : Nat) (b : List Byte) : ∀ f ∈ (feed th b []).frames, f.wf = true := by
  refine feed_induction (P := fun _ r => ∀ f ∈ r.frames, f.wf = true) ?noHeader ?trim ?partialMin ?partialLen
    ?candidate b
  case noHeader => intro b _; rw [noHeader_frames]; exact List.forall_mem_nil _
  case trim => exact fun b i r _ _ ih => ih
  case partialMin => exact fun b _ _ => List.forall_mem_nil _
  case partialLen => exact fun b _ _ _ => List.forall_mem_nil _
  case candidate =>
    intro b r h hlen ih f hf
    rcases mem_settle_frames hf with rfl | hf
    · exact wf_frameOf (isCandidate_take_totalLen h hlen)
    · exact ih f hf

/-- A FEED takes bytes off the front only. -/
theorem feed_buf_suffix (th : Nat) (b : List Byte) : (feed th b []).buf <:+ b := by
  refine feed_induction (P := fun b r => r.buf <:+ b) ?noHeader ?trim ?partialMin ?partialLen ?candidate b
  case noHeader =>
    intro b _
    unfold noHeader
    split
    · exact List.nil_suffix
    · exact List.suffix_refl b
  case trim => exact fun b i r _ _ ih => ih.trans (List.drop_suffix i b)
  case partialMin => exact fun b _ _ => List.suffix_refl b
  case partialLen => exact fun b _ _ _ => List.suffix_refl b
  case candidate => intro b r _ _ ih; rw [settle_buf]; exact ih.trans (List.drop_suffix _ b)

end Sys2Proof.Machine
end

section
/-! ## What the decoder takes off the FRAME channel (R174) -/

namespace Sys2Proof.Machine

/-- A link read is never a PUSH: it is a WIRE row or a FEED. -/
theorem isFeed_decodeRead (bytes : List Byte) : isFeed (decodeRead bytes) = true := by
  cases h : isCandidate bytes with
  | false => rw [decodeRead_of_not_isCandidate h]; rfl
  | true =>
    obtain ⟨cmd, payload, cs, f0, f1, hlen, rfl⟩ := (isCandidate_iff bytes).mp h
    rw [decodeRead_wireBytes hlen, classify]
    split
    · split <;> rfl
    · rfl

/-- An operand stream is taken from its own channel. -/
theorem takeStream_cases {q q' : Ports} {g : List Byte → Instr} {i : Instr} (h : takeStream q g = .ok (i, q')) :
    (∃ bytes, i = g bytes) ∧ q'.frames = q.frames := by
  unfold takeStream at h
  split at h <;> cases h
  exact ⟨⟨_, rfl⟩, rfl⟩

/-- An operand word is taken from its own channel. -/
theorem takeOperand_cases {q q' : Ports} {g : OperandWord → Instr} {i : Instr} (h : takeOperand q g = .ok (i, q')) :
    (∃ w, i = g w) ∧ q'.frames = q.frames := by
  unfold takeOperand at h
  split at h <;> cases h
  exact ⟨⟨_, rfl⟩, rfl⟩

/-- The TX port gives operations of the TX port, and takes nothing off the FRAME channel. -/
theorem decodeTx_cases {q q' : Ports} {i : Instr} (h : decodeTx q = .ok (i, q')) :
    portOf i = .tx ∧ q'.frames = q.frames := by
  unfold decodeTx at h
  split at h
  · cases h
  · simp only at h
    split_ifs at h
    · obtain ⟨⟨_, rfl⟩, hq⟩ := takeStream_cases h; exact ⟨rfl, hq⟩
    · obtain ⟨⟨_, rfl⟩, hq⟩ := takeOperand_cases h; exact ⟨rfl, hq⟩
    · obtain ⟨⟨_, rfl⟩, hq⟩ := takeStream_cases h; exact ⟨rfl, hq⟩
    · obtain ⟨⟨_, rfl⟩, hq⟩ := takeOperand_cases h; exact ⟨rfl, hq⟩

/-- A direct request is never for a PUSH. -/
theorem decodeDirect_ne_push {d : Direct} {f : Frame} : decodeDirect d ≠ .ok (.push f) := by
  cases d with
  | packPosition x z grip => nofun
  | unpackPosition g => rw [decodeDirect]; split <;> nofun

/-- A PUSH takes its Frame object off the front of the FRAME channel; nothing else takes anything off it. -/
theorem decode_frames {p : Port} {q q' : Ports} {i : Instr} (h : decode p q = .ok (i, q')) :
    (∃ f, i = .push f ∧ f.wf = true ∧ q.frames = f :: q'.frames) ∨ (∀ f, i ≠ .push f) ∧ q'.frames = q.frames := by
  cases p <;> simp only [decode] at h
  case tx =>
    obtain ⟨hp, hq⟩ := decodeTx_cases h
    refine .inr ⟨?_, hq⟩
    rintro f rfl
    cases hp
  case push =>
    unfold decodePush at h
    split at h
    · cases h
    · split at h <;> cases h
      exact .inl ⟨_, rfl, ‹_›, ‹_›⟩
  case link =>
    split at h <;> cases h
    rename_i bytes _ _
    exact .inr ⟨fun f hi => Bool.false_ne_true ((congrArg isFeed hi).symm.trans (isFeed_decodeRead bytes)), rfl⟩
  case rx =>
    unfold decodeRx at h
    split at h
    · cases h
    · split at h <;> cases h
      exact .inr ⟨nofun, rfl⟩
  case pop | reset =>
    split at h
    · cases h
    · split at h <;> cases h
      exact .inr ⟨nofun, rfl⟩
  case direct =>
    split at h
    · cases h
    · split at h <;> cases h
      rename_i hd
      exact .inr ⟨fun f hi => decodeDirect_ne_push (hi ▸ hd), rfl⟩

end Sys2Proof.Machine
end

section
/-! ## The machine's invariant (R145, R30, R7) -/

namespace Sys2Proof.Machine

/-- The invariant does not depend on what is pending, but for the frames that wait. -/
theorem State.Inv.with_ports {s : State} (h : s.Inv) {q : Ports} (hq : ∀ f ∈ q.frames, f.wf = true) :
    ({ s with ports := q } : State).Inv :=
  ⟨h.buffer, h.queued, h.emitted, hq, h.queueFits, h.bufferFits⟩

/-- A FEED that is accepted leaves a buffer that fits, in one of the three states, and emits Frame objects. -/
theorem State.Inv.commitFeed {s : State} (h : s.Inv) {chunk : List Byte} (ha : s.accepts chunk = true) :
    (s.commitFeed (feed s.cfg.garbageThreshold (s.buf ++ chunk) [])).Inv where
  buffer := (feed_stopped _ _).bufferInv
  queued := h.queued
  emitted := List.forall_mem_append.mpr ⟨h.emitted, feed_frames_wf _ _⟩
  unpushed := List.forall_mem_append.mpr ⟨h.unpushed, feed_frames_wf _ _⟩
  queueFits := h.queueFits
  bufferFits := by
    have hfits : within (s.buf ++ chunk).length s.cfg.bufCap = true := by
      rw [List.length_append]
      exact (Bool.and_eq_true_iff.mp ha).2
    exact within_mono _ (feed_buf_suffix _ _).length_le hfits

/-- TRY_POP only takes a frame out of the queue. -/
theorem State.Inv.tryPop {s : State} (h : s.Inv) : (s.dequeue.2.answerPop s.dequeue.1).Inv := by
  cases hfq : s.fq with
  | nil =>
    rw [s.dequeue_of_nil hfq]
    exact ⟨h.buffer, h.queued, h.emitted, h.unpushed, h.queueFits, h.bufferFits⟩
  | cons f rest =>
    rw [s.dequeue_of_cons f rest hfq]
    have hqueued : ∀ g ∈ rest, g.wf = true := fun g hg => h.queued g (hfq ▸ List.mem_cons_of_mem f hg)
    have hfits : within rest.length s.cfg.fqDepth = true :=
      within_mono _ (hfq ▸ Nat.le_succ rest.length) h.queueFits
    exact ⟨h.buffer, hqueued, h.emitted, h.unpushed, hfits, h.bufferFits⟩

/-- Empty stores meet every limit. -/
theorem State.Inv.restart {s : State} (h : s.Inv) : s.restart.Inv where
  buffer := .inl (bufferQ0_nil _)
  queued := List.forall_mem_nil _
  emitted := h.emitted
  unpushed := List.forall_mem_nil _
  queueFits := within_mono _ (Nat.zero_le _) h.queueFits
  bufferFits := within_mono _ (Nat.zero_le _) h.bufferFits

/-- Every instruction that completes keeps the invariant; a PUSH, where what it pushes is a Frame object. -/
theorem Completes.inv {s t : State} {i : Instr} (h : Completes s i t) (hs : s.Inv)
    (hpush : ∀ f, i = .push f → f.wf = true) : t.Inv := by
  cases h with
  | feed _ ha => exact hs.commitFeed ha
  | tryPop => exact hs.tryPop
  | reset => exact hs.restart
  | push f hw =>
    have hqueued : ∀ g ∈ s.fq ++ [f], g.wf = true :=
      List.forall_mem_append.mpr ⟨hs.queued, List.forall_mem_singleton.mpr (hpush f rfl)⟩
    have hfits : within (s.fq ++ [f]).length s.cfg.fqDepth = true := by rwa [List.length_append]
    exact ⟨hs.buffer, hqueued, hs.emitted, hs.unpushed, hfits, hs.bufferFits⟩
  | transmit | unpackPosition =>
    exact ⟨hs.buffer, hs.queued, hs.emitted, hs.unpushed, hs.queueFits, hs.bufferFits⟩

/-- Settles O32: a frame comes to be pushed only from the FRAME channel, which holds Frame objects. -/
theorem everyStepKeepsTheInvariant : Obligations.EveryStepKeepsTheInvariant := by
  intro s t hs h
  obtain ⟨p, pending, q, i, hp, hd, hexec⟩ | ⟨q, rfl, hq⟩ := step_cases h
  · have hwf : ∀ f ∈ pending.frames, f.wf = true := nextPort_frames hp ▸ hs.unpushed
    obtain ⟨f, rfl, hf, hframes⟩ | ⟨hne, hframes⟩ := decode_frames hd
    · have hrest : ∀ g ∈ q.frames, g.wf = true := fun g hg => hwf g (hframes ▸ List.mem_cons_of_mem f hg)
      exact (completes_of_exec hexec).inv (hs.with_ports hrest) fun g hg => by cases hg; exact hf
    · exact (completes_of_exec hexec).inv (hs.with_ports (hframes ▸ hwf)) fun g hg => absurd hg (hne g)
  · exact hs.with_ports (hq ▸ hs.unpushed)

end Sys2Proof.Machine
end

section
/-! ## From FEED to TRY_POP: every frame once, in order (R174, log 14) -/

namespace Sys2Proof.Machine

/-- Every instruction but PUSH adds the same frames to those handled and to those emitted, or drops handled ones and
is RESET. -/
theorem Completes.handled {s t : State} {i : Instr} (h : Completes s i t) (hi : ∀ f, i ≠ .push f) :
    (∃ fs, t.handled = s.handled ++ fs ∧ t.out.frames = s.out.frames ++ fs) ∨
      (i = .reset ∧ t.handled.Sublist s.handled ∧ t.out.frames = s.out.frames) := by
  cases h with
  | feed => exact .inl ⟨_, (List.append_assoc _ _ _).symm, rfl⟩
  | push f => exact absurd rfl (hi f)
  | transmit | unpackPosition => exact .inl ⟨[], (List.append_nil _).symm, (List.append_nil _).symm⟩
  | tryPop =>
    refine .inl ⟨[], ?_, by simp⟩
    cases hfq : s.fq with
    | nil => simp [State.handled, hfq]
    | cons f rest => simp [State.handled, hfq]
  | reset =>
    refine .inr ⟨rfl, ?_, rfl⟩
    simp [State.handled]

/-- A frame that is pushed goes from the FRAME channel to the end of the queue. -/
theorem handled_enqueue {s : State} {q : Ports} {f : Frame} (h : s.ports.frames = f :: q.frames) :
    (({ s with ports := q } : State).enqueue f).handled = s.handled := by
  simp [State.handled, h]

/-- What a step that completes does to the frames handled and to those emitted. -/
theorem step_handled {s t : State} (h : step s = .next t) :
    (∃ fs, t.handled = s.handled ++ fs ∧ t.out.frames = s.out.frames ++ fs) ∨
      ((∃ p pending q, nextPort s.ports = some (p, pending) ∧ decode p pending = .ok (.reset, q)) ∧
        t.handled.Sublist s.handled ∧ t.out.frames = s.out.frames) := by
  have same {t' : State} (hh : t'.handled = s.handled) (ho : t'.out.frames = s.out.frames) :
      ∃ fs, t'.handled = s.handled ++ fs ∧ t'.out.frames = s.out.frames ++ fs :=
    ⟨[], by rw [hh, List.append_nil], by rw [ho, List.append_nil]⟩
  obtain ⟨p, pending, q, i, hp, hd, hexec⟩ | ⟨q, rfl, hq⟩ := step_cases h
  · have hpending := nextPort_frames hp
    obtain ⟨f, rfl, -, hframes⟩ | ⟨hne, hframes⟩ := decode_frames hd
    · rw [eq_enqueue_of_exec_push hexec]
      exact .inl (same (handled_enqueue (hpending ▸ hframes)) rfl)
    · have hs : ({ s with ports := q } : State).handled = s.handled := by
        simp only [State.handled, hframes, hpending]
      obtain ⟨fs, hh, ho⟩ | ⟨rfl, hh, ho⟩ := (completes_of_exec hexec).handled hne
      · exact .inl ⟨fs, hs ▸ hh, ho⟩
      · exact .inr ⟨⟨p, pending, q, hp, hd⟩, hs ▸ hh, ho⟩
  · exact .inl (same (by simp only [State.handled, hq]) rfl)

/-- Settles O48: by `step_handled`. -/
theorem framesReachTheQueueOnceInOrder : Obligations.FramesReachTheQueueOnceInOrder := by
  intro s t h
  obtain ⟨fs, hh, ho⟩ | ⟨⟨p, pending, q, hp, hd⟩, hh, ho⟩ := step_handled h
  · rw [hh, ho]
    exact ⟨fun hs => hs.append_right fs, fun hs _ => by rw [hs]⟩
  · rw [ho]
    exact ⟨hh.trans, fun _ hne => absurd hd (hne p pending q hp)⟩

end Sys2Proof.Machine
end

section
/-! ## Beats without a byte (R75, log 13) -/

namespace Sys2Proof.Machine

/-- A beat before the closing one adds its byte, if it has one, to the stream. -/
theorem decodeStream_cons_of_not_last {b : Beat} (h : Beat.last b = false) (bs : List Beat) :
    decodeStream (b :: bs) = (decodeStream bs).map fun r => (Beat.bytes b ++ r.1, r.2) := by
  rw [decodeStream, h]
  rfl

/-- The closing beat ends the stream. -/
theorem decodeStream_cons_of_last {b : Beat} (h : Beat.last b = true) (bs : List Beat) :
    decodeStream (b :: bs) = some (Beat.bytes b, bs) := by
  rw [decodeStream, h]
  rfl

/-- Settles O3: by induction on what stands before the beat in question. -/
theorem beatsWithoutByteCarryNothing : Obligations.BeatsWithoutByteCarryNothing := by
  refine ⟨fun pre post d hpre => ?idle, fun bytes rest d => ?closing⟩
  case idle =>
    induction pre with
    | nil =>
      rw [List.nil_append, decodeStream_cons_of_not_last (last_mkBeat ..), bytes_mkBeat]
      exact Option.map_id_apply
    | cons b bs ih =>
      obtain ⟨hb, hbs⟩ := List.forall_mem_cons.mp hpre
      rw [List.cons_append, List.cons_append, decodeStream_cons_of_not_last hb, decodeStream_cons_of_not_last hb,
        ih hbs]
  case closing =>
    induction bytes with
    | nil =>
      rw [List.map_nil, List.nil_append, decodeStream_cons_of_last (last_mkBeat ..), bytes_mkBeat]
      rfl
    | cons a as ih =>
      rw [List.map_cons, List.cons_append, decodeStream_cons_of_not_last (last_mkBeat ..), ih, bytes_mkBeat]
      rfl

end Sys2Proof.Machine
end

section
/-! ## What a step runs (log 2, log 6, log 10, log 14) -/

namespace Sys2Proof.Machine

/-- While a frame waits, a step without a turn, or with one that brings bytes, pushes it. -/
theorem step_of_waiting {s : State} {f : Frame} {rest : List Frame} (hf : s.ports.frames = f :: rest)
    (hw : f.wf = true) (ht : s.ports.turns = [] ∨ ∃ p ps, s.ports.turns = p :: ps ∧ p.bringsBytes = true) :
    step s = exec (.push f) { s with ports := { s.ports with frames := rest } } := by
  simp only [step, nextPort_push hf ht, decode_push hf hw]

/-- Settles O5: the two ways an instruction comes to be run. -/
theorem stepRunsTheDecodedInstruction : Obligations.StepRunsTheDecodedInstruction := fun _ =>
  ⟨fun _ _ _ _ ht hf hd => step_of_turn ht hf hd, fun _ _ hf hw ht => step_of_waiting hf hw ht⟩

/-- Nothing to do: the block is idle. -/
theorem step_of_idle {s : State} (ht : s.ports.turns = []) (hf : s.ports.frames = []) : step s = .next s := by
  simp only [step, nextPort_idle ht hf]

/-- A turn at a port where no instruction can be read. -/
theorem step_of_reject {s : State} {p : Port} {ps : List Port} {r : Reject} (ht : s.ports.turns = p :: ps)
    (hf : p.bringsBytes = false ∨ s.ports.frames = []) (hd : decode p { s.ports with turns := ps } = .error r) :
    step s = noInstruction r p { s with ports := { s.ports with turns := ps } } := by
  simp only [step, nextPort_turn ht hf, hd]

/-- A record that is no Frame object, where a frame should be pushed, has no meaning. -/
theorem step_of_waiting_not_wf {s : State} {f : Frame} {rest : List Frame} (hf : s.ports.frames = f :: rest)
    (hw : f.wf = false) (ht : s.ports.turns = [] ∨ ∃ p ps, s.ports.turns = p :: ps ∧ p.bringsBytes = true) :
    step s = .refused .notAFrameObject := by
  simp only [step, nextPort_push hf ht, decode, decodePush, hf, hw, Bool.false_eq_true, if_false, noInstruction]

/-- Without a whole operand nothing can be read at the TX port; it has no strobe. -/
theorem decodeTx_ne_strobeLow (q : Ports) : decodeTx q ≠ .error .strobeLow := by
  simp only [decodeTx, takeStream, takeOperand]
  repeat' split
  all_goals nofun

/-- A direct request has no strobe either. -/
theorem decodeDirect_ne_strobeLow (d : Direct) : decodeDirect d ≠ .error .strobeLow := by
  cases d with
  | packPosition x z grip => nofun
  | unpackPosition f => rw [decodeDirect]; split <;> nofun

/-- Only the two strobes can be offered as 0. -/
theorem strobe_of_strobeLow {p : Port} {q : Ports} (h : decode p q = .error .strobeLow) :
    (p = .pop ∧ ∃ rest, q.popStrobe = 0 :: rest) ∨ (p = .reset ∧ ∃ rest, q.resetInput = 0 :: rest) := by
  have zero_of_ne_one : ∀ b : BitVec 1, b ≠ 1 → b = 0 := by decide
  cases p <;> simp only [decode] at h
  case pop =>
    split at h
    · cases h
    · split at h <;> cases h
      rename_i b rest hb hne
      exact .inl ⟨rfl, rest, zero_of_ne_one b hne ▸ hb⟩
  case reset =>
    split at h
    · cases h
    · split at h <;> cases h
      rename_i b rest hb hne
      exact .inr ⟨rfl, rest, zero_of_ne_one b hne ▸ hb⟩
  case tx => exact absurd h (decodeTx_ne_strobeLow q)
  case link => split at h <;> cases h
  case rx =>
    simp only [decodeRx] at h
    split at h
    · cases h
    · split at h <;> cases h
  case push =>
    simp only [decodePush] at h
    split at h
    · cases h
    · split at h <;> cases h
  case direct =>
    split at h
    · cases h
    · split at h <;> cases h
      exact absurd ‹decodeDirect _ = _› (decodeDirect_ne_strobeLow _)

/-- Settles O8: by what is offered at the port of the turn. -/
theorem blockWaitsWithoutAnInstruction : Obligations.BlockWaitsWithoutAnInstruction := by
  refine fun s => ⟨step_of_idle, fun p ps r ht hf hd => ?turn, fun f rest => step_of_waiting_not_wf⟩
  case turn =>
    rw [step_of_reject ht hf hd]
    refine ⟨fun hr => by rw [hr]; rfl, fun hr => ?low, fun hobject hlow => ?waits⟩
    case low =>
      subst hr
      obtain ⟨rfl, rest, hrest⟩ | ⟨rfl, rest, hrest⟩ := strobe_of_strobeLow hd
      · exact .inl ⟨rfl, rest, hrest, by simp [noInstruction, afterReject, show s.ports.popStrobe = _ from hrest]⟩
      · exact .inr ⟨rfl, rest, hrest, by simp [noInstruction, afterReject, show s.ports.resetInput = _ from hrest]⟩
    case waits =>
      cases r with
      | notAFrameObject => exact absurd rfl hobject
      | strobeLow => exact absurd rfl hlow
      | nothingOffered | streamOpen | operandMissing => rfl

end Sys2Proof.Machine
end

section
/-! ## An offered instruction is the next to run (R75, log 14) -/

namespace Sys2Proof.Machine

/-- The ports that bring bytes are those of FEED and the WIRE rows. -/
theorem bringsBytes_portOf (i : Instr) : (portOf i).bringsBytes = isFeed i := by cases i <;> rfl

/-- The words of an instruction stand without a turn. -/
theorem turns_wordsOf (i : Instr) : (wordsOf i).turns = [] := by cases i <;> rfl

/-- Nothing of a FEED or WIRE row stands on the FRAME channel. -/
theorem frames_encode_of_isFeed {i : Instr} (h : isFeed i = true) : (encode i).frames = [] := by
  cases i with
  | frame | framePos | feed => rfl
  | encode | encodePosition | csum | validatePosition | tryPop | reset | push | packPosition | unpackPosition => cases h

/-- Once its turn is taken, an encoded instruction is its words. -/
theorem offer_encode_with_turns (i : Instr) (q : Ports) :
    { (encode i).offer q with turns := q.turns } = (wordsOf i).offer q := by
  simp only [Ports.offer, encode, turns_wordsOf, List.nil_append]

/-- Settles O6: the turn in front is the instruction's, and the decoder reads its words back. -/
theorem offeredInstructionIsTheNextToRun : Obligations.OfferedInstructionIsTheNextToRun := by
  refine fun s i hw => ⟨fun hfree => ?runs, fun f rest hfeed hframes hf => ?pushed⟩
  case runs =>
    have hdecode : decode (portOf i) { (encode i).offer s.ports with turns := s.ports.turns } = .ok (i, s.ports) := by
      rw [offer_encode_with_turns, decodeReadsBackEncodedWords i s.ports hw]
    have hturn : (portOf i).bringsBytes = false ∨ ((encode i).offer s.ports).frames = [] := by
      rw [bringsBytes_portOf]
      cases hfeed : isFeed i with
      | false => exact .inl rfl
      | true =>
        have hnone : s.ports.frames = [] := hfree.resolve_left (by rw [hfeed]; decide)
        exact .inr (by rw [Ports.offer, frames_encode_of_isFeed hfeed, hnone]; rfl)
    exact step_of_turn (s := s.offered (encode i)) rfl hturn hdecode
  case pushed =>
    have hnone := frames_encode_of_isFeed hfeed
    have hwaiting : ((encode i).offer s.ports).frames = f :: rest := by rw [Ports.offer, hnone, hframes]; rfl
    have hturn : (portOf i).bringsBytes = true := (bringsBytes_portOf i).trans hfeed
    rw [step_of_waiting (s := s.offered (encode i)) hwaiting hf (.inr ⟨_, s.ports.turns, rfl, hturn⟩)]
    simp only [State.offered, Ports.offer, hnone, List.nil_append]

end Sys2Proof.Machine
end

section
/-! ## Numbers of the opcode table (R76, log 5) -/

namespace Sys2Proof.Machine

/-- Settles O4: each word is decoded. -/
theorem wordsOfTheTableDecodeToTheirRows : Obligations.WordsOfTheTableDecodeToTheirRows := by
  refine ⟨?frame, ?framePos, ?encode, ?encodePosition, ?csum, ?validatePosition, ?tryPop, ?feed, ?reset⟩
  all_goals rfl

/-- A command word is its two fields. -/
theorem exists_eq_mkCmd (c : CmdWord) : ∃ (o : BitVec 2) (cmd : Byte), c = mkCmd o cmd := by
  have hfields : CmdWord.select c ++ CmdWord.cmd c = BitVec.extractLsb' 0 (2 + 8) c :=
    BitVec.extractLsb'_append_extractLsb'_eq_extractLsb' rfl
  exact ⟨CmdWord.select c, CmdWord.cmd c, (hfields.trans BitVec.extractLsb'_eq_self).symm⟩

/-- The four values of `oo`. -/
theorem select_cases (o : BitVec 2) : o = 0 ∨ o = 1 ∨ o = 2 ∨ o = 3 := by
  revert o
  decide

/-- Words with a turn of one port that are read there as an instruction, alone, and in front of what is pending, which
stays. -/
structure ReadsAs (words : Ports) (p : Port) (i : Instr) : Prop where
  turn : words.turns = [p]
  bringsBytes : p.bringsBytes = isFeed i
  noFrames : isFeed i = true → words.frames = []
  alone : ∃ q, decode p words = .ok (i, q)
  offered (pending : Ports) : decode p { words.offer pending with turns := pending.turns } = .ok (i, pending)

/-- The TX numbers are read as operations of the TX port. -/
theorem txOfNumber_reads (w : Nat) : ∃ i, ReadsAs (txOfNumber w) .tx i := by
  obtain ⟨o, cmd, hc⟩ := exists_eq_mkCmd (BitVec.ofNat 10 w)
  simp only [txOfNumber, hc, select_mkCmd]
  rcases select_cases o with rfl | rfl | rfl | rfl
  · exact ⟨.encode cmd [], rfl, rfl, nofun, ⟨_, decode_encode rfl rfl⟩, fun _ => decode_encode rfl rfl⟩
  · exact ⟨.encodePosition cmd 0 0 0, rfl, rfl, nofun, ⟨_, decode_encodePosition rfl rfl⟩,
      fun _ => decode_encodePosition rfl rfl⟩
  · exact ⟨.csum [], rfl, rfl, nofun, ⟨_, decode_csum rfl rfl⟩, fun _ => decode_csum rfl rfl⟩
  · exact ⟨.validatePosition 0 0 0, rfl, rfl, nofun, ⟨_, decode_validatePosition rfl rfl⟩,
      fun _ => decode_validatePosition rfl rfl⟩

/-- Words that are read as an instruction give it as their number's. -/
theorem decodeTableWord_of_reads {nbits w : Nat} {p : Port} {i : Instr} (h : ReadsAs (tableWords nbits w) p i) :
    decodeTableWord nbits w = some i := by
  obtain ⟨q, hq⟩ := h.alone
  simp only [decodeTableWord, h.turn, hq]

/-- Every number's words are read as an instruction, but for a strobe of 0. -/
theorem tableWords_cases (nbits w : Nat) :
    (∃ p i, ReadsAs (tableWords nbits w) p i) ∨ decodeTableWord nbits w = none := by
  simp only [decodeTableWord, tableWords]
  split_ifs
  · exact .inl ⟨.push, .push ⟨0, 0, []⟩, rfl, rfl, nofun, ⟨_, rfl⟩, fun _ => rfl⟩
  · have strobes : ∀ b : BitVec 1, b = 0 ∨ b = 1 := by decide
    rcases strobes (BitVec.ofNat 1 w) with hb | hb <;> rw [hb]
    · exact .inr rfl
    · exact .inl ⟨.pop, .tryPop, rfl, rfl, nofun, ⟨_, rfl⟩, fun _ => rfl⟩
  · exact .inl ⟨.tx, txOfNumber_reads w⟩
  · exact .inl ⟨.link, decodeRead (wireOfNumber nbits w), rfl, (isFeed_decodeRead _).symm, fun _ => rfl, ⟨_, rfl⟩,
      fun _ => rfl⟩

/-- Such words, placed from outside, are what the next step runs; those that bring bytes, after the hand-over. -/
theorem step_withFetchWord_of_reads {nbits w : Nat} {p : Port} {i : Instr} (h : ReadsAs (tableWords nbits w) p i)
    (s : State) : step (s.withFetchWord nbits w) = exec i (if isFeed i then s.handOver else s) := by
  have hplaced : s.withFetchWord nbits w =
      (if isFeed i then s.handOver else s).offered (tableWords nbits w) := by
    simp only [State.withFetchWord, State.offered, h.turn, List.any_cons, List.any_nil, Bool.or_false, h.bringsBytes]
  have hturn : p.bringsBytes = false ∨
      ((tableWords nbits w).offer (if isFeed i then s.handOver else s).ports).frames = [] := by
    cases hfeed : isFeed i with
    | false => exact .inl (h.bringsBytes.trans hfeed)
    | true => exact .inr (by rw [Ports.offer, h.noFrames hfeed]; rfl)
  rw [hplaced]
  refine step_of_turn (ps := (if isFeed i then s.handOver else s).ports.turns) ?_ hturn (h.offered _)
  rw [State.offered_ports, Ports.offer, h.turn]
  rfl

/-- Settles O7: a number that is decoded is one whose words are read as that instruction. -/
theorem tableWordIsTheNextToRun : Obligations.TableWordIsTheNextToRun := by
  intro s nbits w i h
  obtain ⟨p, j, hreads⟩ | hnone := tableWords_cases nbits w
  · cases (decodeTableWord_of_reads hreads).symm.trans h
    exact step_withFetchWord_of_reads hreads s
  · cases hnone.symm.trans h

end Sys2Proof.Machine
end

section
/-! ## The transmit path leaves the stores alone (R51) -/

namespace Sys2Proof.Machine

/-- Settles O56: what the transmit path sends depends on the constants only, what UNPACK_POSITION answers on its operand
only. -/
theorem pureOperationsIgnoreBufferAndQueue : Obligations.PureOperationsIgnoreBufferAndQueue := by
  rintro i s buf fq (hi | ⟨f, rfl⟩)
  · obtain ⟨e, -, hexec⟩ := exec_transmit_sends hi s.cfg
    exact ⟨s.send e, hexec s rfl, rfl, rfl, hexec { s with buf := buf, fq := fq } rfl⟩
  · exact ⟨s.answerUnpack (unpack f), exec_unpackPosition f s, rfl, rfl, rfl⟩

/-- What the transmit path has sent makes no difference to a FEED or WIRE row, and stays. -/
theorem exec_feed_send {i : Instr} (hi : isFeed i = true) (s : State) (e : Sent) :
    (∃ t, exec i s = .next t ∧ exec i (s.send e) = .next (t.send e) ∧ t.cfg = s.cfg) ∨
      ∃ r, exec i s = .refused r ∧ exec i (s.send e) = .refused r := by
  rw [exec_of_isFeed s hi, exec_of_isFeed (s.send e) hi, feedState, feedState]
  have haccepts : (s.send e).accepts (chunkOf i) = s.accepts (chunkOf i) := rfl
  rw [haccepts]
  cases s.accepts (chunkOf i) with
  | true => exact .inl ⟨_, rfl, rfl, rfl⟩
  | false => exact .inr ⟨_, rfl, rfl⟩

/-- The same for every operation of the receive path. -/
theorem exec_receive_send {i : Instr} (hi : isReceive i = true) (s : State) (e : Sent) :
    (∃ t, exec i s = .next t ∧ exec i (s.send e) = .next (t.send e) ∧ t.cfg = s.cfg) ∨
      ∃ r, exec i s = .refused r ∧ exec i (s.send e) = .refused r := by
  cases i with
  | encode | encodePosition | csum | validatePosition | reset | packPosition => cases hi
  | frame | framePos | feed => exact exec_feed_send rfl s e
  | unpackPosition f => exact .inl ⟨_, exec_unpackPosition f s, rfl, rfl⟩
  | push f =>
    rcases hw : within (s.fq.length + 1) s.cfg.fqDepth with _ | _
    · have hfull : ¬ within (s.fq.length + 1) s.cfg.fqDepth = true := by rw [hw]; decide
      exact .inr ⟨.frameQueueFull, if_neg hfull, if_neg hfull⟩
    · exact .inl ⟨s.enqueue f, exec_push_of_within hw f, exec_push_of_within (s := s.send e) hw f, rfl⟩
  | tryPop =>
    cases hfq : s.fq with
    | nil => exact .inl ⟨_, exec_tryPop_of_nil hfq, exec_tryPop_of_nil (s := s.send e) hfq, rfl⟩
    | cons f rest => exact .inl ⟨_, exec_tryPop_of_cons hfq, exec_tryPop_of_cons (s := s.send e) hfq, rfl⟩

/-- One operation after another that completed. -/
theorem execAll_cons_of_next {i : Instr} {s t : State} (h : exec i s = .next t) (is : List Instr) :
    execAll (i :: is) s = execAll is t := by
  rw [execAll, h]

/-- A refused operation ends the run. -/
theorem execAll_cons_of_refused {i : Instr} {s : State} {r : Refusal} (h : exec i s = .refused r) (is : List Instr) :
    execAll (i :: is) s = .refused r := by
  rw [execAll, h]

/-- Settles O58: what the one sends is the same before and after the other. -/
theorem transmitAndReceiveCommute : Obligations.TransmitAndReceiveCommute := by
  intro i j s hi hj
  obtain ⟨e, -, hsend⟩ := exec_transmit_sends hi s.cfg
  rw [execAll_cons_of_next (hsend s rfl)]
  obtain ⟨t, ht, ht', hcfg⟩ | ⟨r, hr, hr'⟩ := exec_receive_send hj s e
  · rw [execAll_cons_of_next ht', execAll_cons_of_next ht, execAll_cons_of_next (hsend t hcfg)]
  · rw [execAll_cons_of_refused hr', execAll_cons_of_refused hr]

end Sys2Proof.Machine
end

section
/-! ## FEED and the WIRE rows in a state (R130, log 4, log 8) -/

namespace Sys2Proof.Machine

/-- A FEED or WIRE row whose bytes are accepted commits what the loop makes of the buffer with all of them appended. -/
theorem exec_isFeed_of_accepts {i : Instr} {s : State} (hi : isFeed i = true) (h : s.accepts (chunkOf i) = true) :
    exec i s = .next (s.commitFeed (feed s.cfg.garbageThreshold (s.buf ++ chunkOf i) [])) :=
  (exec_of_isFeed s hi).trans (exec_feed_of_accepts h)

/-- Settles O22: the loop takes bytes off the front only, and the commit is spelled out. -/
theorem feedNeverFails : Obligations.FeedNeverFails := by
  intro i s hi hroom
  have ha : s.accepts (chunkOf i) = true := hroom.elim (·.accepts _) id
  exact ⟨_, _, _, _, exec_isFeed_of_accepts hi ha, feed_buf_suffix _ _, rfl, rfl⟩

/-- Settles O25: the bytes of R60 and R70, written out. -/
theorem wireRowsAreFeedsOfTheirBytes : Obligations.WireRowsAreFeedsOfTheirBytes := fun _ _ _ _ _ _ _ _ _ =>
  ⟨rfl, rfl, rfl⟩

/-- Settles O26: `exec_feed_goes_on`, at offset 0 and with nothing sent. -/
theorem feedAppendsTheWholeChunkFirst : Obligations.FeedAppendsTheWholeChunkFirst := fun s _ h =>
  exec_feed_goes_on (k := 0) (q := s.ports) (o := s.out) h rfl

/-- Settles O57: the loop is given the buffer and the bytes only. -/
theorem feedReadsTheBufferOnly : Obligations.FeedReadsTheBufferOnly := by
  intro i s t fq q rs bs hi h
  obtain ⟨ha, rfl⟩ := eq_commitFeed_of_exec hi h
  exact ⟨_, rfl, exec_isFeed_of_accepts hi ha⟩

end Sys2Proof.Machine
end

section
/-! ## Refusals (U7, U8, log 8) -/

namespace Sys2Proof.Machine

/-- A number is outside a limit exactly when there is one and it is below it. -/
theorem within_eq_false_iff (n : Nat) (limit : Option Nat) :
    within n limit = false ↔ ∃ m, limit = some m ∧ m < n := by
  cases limit with
  | none => simp
  | some m => simp [within]

/-- A chunk is not accepted exactly when it is over the one limit or the other. -/
theorem accepts_eq_false_iff (s : State) (chunk : List Byte) :
    s.accepts chunk = false ↔ (∃ m, s.cfg.maxChunk = some m ∧ m < chunk.length) ∨
      ∃ c, s.cfg.bufCap = some c ∧ c < s.buf.length + chunk.length := by
  rw [State.accepts, Bool.and_eq_false_iff, within_eq_false_iff, within_eq_false_iff]

/-- When a FEED or WIRE row is refused. -/
theorem exec_isFeed_eq_refused_iff {i : Instr} (hi : isFeed i = true) (s : State) (r : Refusal) :
    exec i s = .refused r ↔ r = .chunkOverCapacity ∧ s.accepts (chunkOf i) = false := by
  rw [exec_of_isFeed s hi]
  obtain ⟨ha, hn⟩ | ⟨ha, hn⟩ := feedState_cases (chunkOf i) s <;> rw [hn, ha]
  · exact ⟨nofun, nofun⟩
  · exact ⟨fun h => ⟨by cases h; rfl, rfl⟩, fun ⟨hr, _⟩ => by rw [hr]⟩

/-- When a PUSH is refused. -/
theorem exec_push_eq_refused_iff (f : Frame) (s : State) (r : Refusal) :
    exec (.push f) s = .refused r ↔ r = .frameQueueFull ∧ within (s.fq.length + 1) s.cfg.fqDepth = false := by
  rw [exec, execPush]
  cases within (s.fq.length + 1) s.cfg.fqDepth with
  | true => exact ⟨nofun, nofun⟩
  | false => exact ⟨fun h => ⟨by cases h; rfl, rfl⟩, fun ⟨hr, _⟩ => by rw [hr]; rfl⟩

/-- Nothing else is refused. -/
theorem exec_ne_refused {i : Instr} (hi : isFeed i = false) (hpush : ∀ f, i ≠ .push f) (s : State) (r : Refusal) :
    exec i s ≠ .refused r := by
  have sends (htx : isTransmit i = true) : exec i s ≠ .refused r := by
    obtain ⟨e, -, hexec⟩ := exec_transmit_sends htx s.cfg
    rw [hexec s rfl]
    nofun
  cases i with
  | frame | framePos | feed => cases hi
  | push f => exact absurd rfl (hpush f)
  | encode | encodePosition | csum | validatePosition | packPosition => exact sends rfl
  | tryPop | reset | unpackPosition => nofun

/-- Settles O24: FEEDs, PUSH, and the rest. -/
theorem onlyFiniteInstancesRefuse : Obligations.OnlyFiniteInstancesRefuse := by
  intro i s r
  cases hfeed : isFeed i with
  | true =>
    have hpush : ¬ ∃ f, i = .push f := by rintro ⟨f, rfl⟩; cases hfeed
    rw [exec_isFeed_eq_refused_iff hfeed, accepts_eq_false_iff]
    simp only [hpush, false_and, and_false, or_false, true_and]
  | false =>
    simp only [Bool.false_eq_true, false_and, and_false, false_or]
    by_cases hpush : ∃ f, i = .push f
    · obtain ⟨f, rfl⟩ := hpush
      have hexists : ∃ g, Instr.push f = .push g := ⟨f, rfl⟩
      simp only [exec_push_eq_refused_iff, within_eq_false_iff, hexists, true_and, Nat.lt_succ_iff]
    · simp only [hpush, false_and, and_false, iff_false]
      exact exec_ne_refused hfeed (fun f hf => hpush ⟨f, hf⟩) s r

end Sys2Proof.Machine
end

section
/-! ## Who writes what (10_state.md section 1) -/

namespace Sys2Proof.Machine

/-- An operation of the transmit path is neither a FEED nor RESET. -/
theorem not_feed_of_isTransmit {i : Instr} (h : isTransmit i = true) : isFeed i = false ∧ i ≠ .reset := by
  cases i with
  | frame | framePos | feed | tryPop | reset | push | unpackPosition => cases h
  | encode | encodePosition | csum | validatePosition | packPosition => exact ⟨rfl, nofun⟩

/-- Settles O55: by the way the instruction completes. -/
theorem onlyTheirWritersChangeBufferAndQueue : Obligations.OnlyTheirWritersChangeBufferAndQueue := by
  intro i s t h
  cases completes_of_exec h with
  | feed hi ha =>
    refine ⟨fun _ => .inl hi, fun hne => absurd rfl hne, rfl, fun hn => ?_, ?_, fun _ => ⟨_, rfl, rfl⟩⟩
    · cases hi.symm.trans hn
    · rintro rfl; cases hi
  | transmit hi he =>
    obtain ⟨hfeed, hreset⟩ := not_feed_of_isTransmit hi
    refine ⟨fun hne => absurd rfl hne, fun hne => absurd rfl hne, rfl, fun _ _ => rfl,
      fun hr => absurd hr hreset, fun hf => ?_⟩
    cases hf.symm.trans hfeed
  | tryPop =>
    exact ⟨fun hne => absurd s.dequeue_buf hne, fun _ => .inr (.inl rfl), s.dequeue_cfg, fun _ _ => s.dequeue_ports,
      nofun, nofun⟩
  | reset => exact ⟨fun _ => .inr rfl, fun _ => .inr (.inr rfl), rfl, fun _ hne => absurd rfl hne, fun _ => rfl, nofun⟩
  | push f hw => exact ⟨fun hne => absurd rfl hne, fun _ => .inl ⟨f, rfl⟩, rfl, fun _ _ => rfl, nofun, nofun⟩
  | unpackPosition f =>
    exact ⟨fun hne => absurd rfl hne, fun hne => absurd rfl hne, rfl, fun _ _ => rfl, nofun, nofun⟩

end Sys2Proof.Machine
end

section
/-! ## The state after reset, and RESET (R34, R210, R212, log 18) -/

namespace Sys2Proof.Machine

/-- Nothing is stored, offered or sent at reset. -/
theorem inv_reset : State.reset.Inv :=
  ⟨.inl (bufferQ0_nil _), List.forall_mem_nil _, List.forall_mem_nil _, List.forall_mem_nil _, rfl, rfl⟩

/-- Settles O33: everything is empty. -/
theorem invariantsHoldAtReset : Obligations.InvariantsHoldAtReset :=
  ⟨inv_reset, ⟨[], List.forall_mem_nil _, rfl, rfl⟩, rfl⟩

/-- One step after another that completed. -/
theorem stepN_succ_of_next {s t : State} (h : step s = .next t) (n : Nat) : stepN (n + 1) s = stepN n t := by
  rw [stepN, h]

/-- An idle block stays as it is. -/
theorem stepN_of_idle {s : State} (ht : s.ports.turns = []) (hf : s.ports.frames = []) (n : Nat) :
    stepN n s = .next s := by
  induction n with
  | zero => rfl
  | succ n ih => rw [stepN_succ_of_next (step_of_idle ht hf), ih]

/-- Settles O52: the next state is `s.restart`, in which no frame waits. -/
theorem resetLeavesEverythingElse : Obligations.ResetLeavesEverythingElse := by
  rintro s t rfl
  exact ⟨exec_reset s, exec_reset s.handOver, rfl, fun ht => stepN_of_idle ht rfl⟩

end Sys2Proof.Machine
end

section
/-! ## The queue in and out (R171, R172, R174) -/

namespace Sys2Proof.Machine

/-- An unbounded queue takes every frame. -/
theorem exec_push_of_unbounded {s : State} (h : s.cfg.fqDepth = none) (f : Frame) :
    exec (.push f) s = .next (s.enqueue f) :=
  exec_push_of_within (by rw [h, within_none]) f

/-- A run goes on where its first part ended. -/
theorem execAll_append_of_next {is : List Instr} {s t : State} (h : execAll is s = .next t) (js : List Instr) :
    execAll (is ++ js) s = execAll js t := by
  induction is generalizing s with
  | nil => cases h; rfl
  | cons i is ih =>
    rw [execAll] at h
    rw [List.cons_append, execAll]
    cases hi : exec i s with
    | next u => rw [hi] at h; exact ih h
    | fault r => rw [hi] at h; cases h
    | refused r => rw [hi] at h; cases h

/-- PUSHes put their frames at the end of an unbounded queue, in order. -/
theorem execAll_push {s : State} (h : s.cfg.fqDepth = none) (fs : List Frame) :
    execAll (fs.map .push) s = .next { s with fq := s.fq ++ fs } := by
  induction fs generalizing s with
  | nil => rw [List.append_nil]; rfl
  | cons f fs ih =>
    rw [List.map_cons, execAll_cons_of_next (exec_push_of_unbounded h f), ih (s := s.enqueue f) h, State.enqueue,
      List.append_assoc]
    rfl

/-- As many TRY_POPs as there are frames queued answer these frames, in order. -/
theorem execAll_tryPop (fs : List Frame) {s : State} (h : s.fq = fs) :
    execAll (List.replicate fs.length .tryPop) s =
      .next { s with fq := [], out := { s.out with pops := s.out.pops ++ fs.map some } } := by
  induction fs generalizing s with
  | nil =>
    have hs : ({ s with fq := [] } : State) = s := by rw [← h]
    rw [List.map_nil, List.append_nil]
    exact congrArg Host.Outcome.next hs.symm
  | cons f fs ih =>
    rw [List.length_cons, List.replicate_succ, execAll_cons_of_next (exec_tryPop_of_cons h), ih rfl,
      State.answerPop, List.append_assoc]
    rfl

/-- Settles O47: the pushed frames stand behind those queued, and so they are popped. -/
theorem queueDeliversInOrderOnce : Obligations.QueueDeliversInOrderOnce := by
  rintro s fs ⟨-, -, hq⟩
  rw [execAll_append_of_next (execAll_push hq fs), ← List.length_append]
  exact execAll_tryPop (s.fq ++ fs) rfl

/-- As many steps as there are waiting frames push them, while the turn in front brings bytes or there is none. -/
theorem stepN_waiting (fs : List Frame) {s : State} (hframes : s.ports.frames = fs) (hq : s.cfg.fqDepth = none)
    (hwf : ∀ f ∈ fs, f.wf = true)
    (ht : s.ports.turns = [] ∨ ∃ p ps, s.ports.turns = p :: ps ∧ p.bringsBytes = true) :
    stepN fs.length s = .next { s with fq := s.fq ++ fs, ports := { s.ports with frames := [] } } := by
  induction fs generalizing s with
  | nil =>
    have hs : ({ s with ports := { s.ports with frames := [] } } : State) = s := by rw [← hframes]
    rw [List.append_nil]
    exact congrArg Host.Outcome.next hs.symm
  | cons f fs ih =>
    obtain ⟨hf, hfs⟩ := List.forall_mem_cons.mp hwf
    have hstep := (step_of_waiting hframes hf ht).trans (exec_push_of_unbounded (by exact hq) f)
    rw [List.length_cons, stepN_succ_of_next hstep, ih (by rfl) (by exact hq) hfs (by exact ht), State.enqueue,
      List.append_assoc]
    rfl

/-- Settles O49: by `stepN_waiting`. -/
theorem waitingFramesArePushedBeforeMoreBytes : Obligations.WaitingFramesArePushedBeforeMoreBytes :=
  fun s hq hwf ht => stepN_waiting s.ports.frames rfl hq hwf ht

end Sys2Proof.Machine
end

section
/-! ## Result words and codes (R31, R32, R122, R181) -/

namespace Sys2Proof.Machine

/-- Bit 0 of the mask stands for `x`, bit 1 for `z`, bit 2 for `grip`. -/
theorem violationMask_bits (v : List PosField) :
    (violationMask v).getLsbD 0 = v.contains .x ∧ (violationMask v).getLsbD 1 = v.contains .z ∧
      (violationMask v).getLsbD 2 = v.contains .grip := by
  have bits : ∀ g z x : Bool,
      (BitVec.ofBool g ++ (BitVec.ofBool z ++ BitVec.ofBool x)).getLsbD 0 = x ∧
      (BitVec.ofBool g ++ (BitVec.ofBool z ++ BitVec.ofBool x)).getLsbD 1 = z ∧
      (BitVec.ofBool g ++ (BitVec.ofBool z ++ BitVec.ofBool x)).getLsbD 2 = g := by decide
  exact bits _ _ _

/-- Code and mask of a result word without a value, as a number. -/
theorem toNat_code_mask_zero (code : BitVec 2) (mask : BitVec 3) :
    (code ++ (mask ++ (0 : Byte))).toNat = 2048 * code.toNat + 256 * mask.toNat := by
  revert code mask
  decide

/-- Settles O19: bit by bit and word by word. -/
theorem resultWordsCarryCodeAndMask : Obligations.ResultWordsCarryCodeAndMask := by
  refine ⟨fun v n => ?words, fun r => ?never, rfl, rfl, rfl, rfl, rfl, rfl, rfl, rfl⟩
  case words =>
    obtain ⟨hx, hz, hgrip⟩ := violationMask_bits v
    rw [hx, hz, hgrip, List.contains_iff_mem, List.contains_iff_mem, List.contains_iff_mem]
    refine ⟨Iff.rfl, Iff.rfl, Iff.rfl, ?_, toNat_code_mask_zero 2 _, toNat_code_mask_zero 1 0, rfl⟩
    exact (toNat_code_mask_zero 0 _).trans (Nat.zero_add _)
  case never =>
    cases r with
    | encoded | sum | violations => exact (by decide : (0 : BitVec 2) ≠ 3)
    | invalidPayload => exact (by decide : (1 : BitVec 2) ≠ 3)
    | outOfRange => exact (by decide : (2 : BitVec 2) ≠ 3)

end Sys2Proof.Machine
end

section
/-! ## binary32 values (R71, log 11) -/

namespace Sys2Proof.Machine

/-- The absolute value of a finite pattern with biased exponent `e` and fraction `f`, in units of 2^-149. -/
def magnitude (e f : Nat) : Nat := if e = 0 then f else (2 ^ 23 + f) * 2 ^ (e - 1)

/-- The sign bit set or not. -/
def signed (b : Nat) (m : Nat) : Int := if b = 1 then -(m : Int) else m

/-- The value of a pattern by its three fields. -/
theorem f32val_of_fields {w : Word32} {b e f : Nat} (hb : b < 2) (he : e < 256) (hf : f < 2 ^ 23)
    (hw : w.toNat = b * 2 ^ 31 + e * 2 ^ 23 + f) :
    f32val w = if e = 255 then if f = 0 then if b = 1 then .negInf else .posInf else .nan
      else .finite (signed b (magnitude e f)) := by
  have hsign : w.getLsbD 31 = decide (b = 1) := by
    rw [BitVec.getLsbD, Nat.testBit_eq_decide_div_mod_eq, hw, decide_eq_decide]
    omega
  have hexponent : (w.extractLsb' 23 8).toNat = e := by
    rw [BitVec.extractLsb'_toNat, Nat.shiftRight_eq_div_pow, hw]
    omega
  have hfraction : (w.extractLsb' 0 23).toNat = f := by
    rw [BitVec.extractLsb'_toNat, Nat.shiftRight_eq_div_pow, hw]
    omega
  simp only [f32val, hsign, hexponent, hfraction, decide_eq_true_eq, signed, magnitude]

/-- A set sign bit is a factor of -1. -/
theorem signed_cast {b : Nat} (hb : b < 2) (m : Nat) : (signed b m : ℚ) = (-1) ^ b * m := by
  interval_cases b <;> simp [signed]

/-- The magnitude of a normal number. -/
theorem magnitude_normal {e : Nat} (he : 0 < e) (f : Nat) :
    (magnitude e f : ℚ) / 2 ^ 149 = (2 : ℚ) ^ ((e : Int) - 127) * (1 + (f : ℚ) / 2 ^ 23) := by
  obtain ⟨k, rfl⟩ := Nat.exists_eq_succ_of_ne_zero he.ne'
  have hexponent : (2 : ℚ) ^ (((k + 1 : Nat) : Int) - 127) = 2 ^ k / 2 ^ 126 := by
    rw [show ((k + 1 : Nat) : Int) - 127 = (k : Int) - (126 : Nat) by push_cast; omega, zpow_sub₀ two_ne_zero,
      zpow_natCast, zpow_natCast]
  rw [hexponent, magnitude, if_neg k.succ_ne_zero]
  push_cast
  ring

/-- The magnitude of a subnormal number or zero. -/
theorem magnitude_subnormal (f : Nat) :
    (magnitude 0 f : ℚ) / 2 ^ 149 = (2 : ℚ) ^ (-126 : Int) * ((f : ℚ) / 2 ^ 23) := by
  rw [magnitude, if_pos rfl, zpow_neg, show (126 : Int) = (126 : Nat) from rfl, zpow_natCast]
  ring

/-- Settles O20: `f32val_of_fields`, and the two magnitudes. -/
theorem patternsHaveTheirBinary32Values : Obligations.PatternsHaveTheirBinary32Values := by
  intro w b e f hb he hf hw
  have hval := f32val_of_fields hb he hf hw
  refine ⟨fun h hne => ?nan, fun h h0 => ?infinity, fun hpos hlt => ?normal, fun h0 => ?subnormal⟩
  case nan => rw [hval, if_pos h, if_neg hne]
  case infinity => rw [hval, if_pos h, if_pos h0]
  case normal =>
    refine ⟨_, hval.trans (if_neg hlt.ne), ?_⟩
    rw [signed_cast hb, mul_div_assoc, magnitude_normal hpos, mul_assoc]
  case subnormal =>
    subst h0
    refine ⟨_, hval.trans (if_neg (by decide)), ?_⟩
    rw [signed_cast hb, mul_div_assoc, magnitude_subnormal, mul_assoc]

/-- Settles O54: each pattern's value. -/
theorem builtInBoundsAreTheNumbersOfTheTable : Obligations.BuiltInBoundsAreTheNumbersOfTheTable :=
  ⟨rfl, rfl, rfl, rfl, rfl⟩

end Sys2Proof.Machine
end

section
/-! ## Valid patterns at the built-in bounds (D14, log 11) -/

namespace Sys2Proof.Machine

/-- The magnitude of the pattern `n`, read without its sign. -/
def patternMagnitude (n : Nat) : Nat := magnitude (n / 2 ^ 23) (n % 2 ^ 23)

/-- The next exponent with fraction 0 is more than any fraction at this one. -/
theorem magnitude_lt_next {f : Nat} (hf : f < 2 ^ 23) (e : Nat) : magnitude e f < magnitude (e + 1) 0 := by
  rw [magnitude, magnitude, if_neg e.succ_ne_zero, Nat.add_zero, Nat.add_sub_cancel]
  split
  case isTrue h => subst h; simpa using hf
  case isFalse h =>
    obtain ⟨k, rfl⟩ := Nat.exists_eq_succ_of_ne_zero h
    calc (2 ^ 23 + f) * 2 ^ (k + 1 - 1) < (2 ^ 23 + 2 ^ 23) * 2 ^ k :=
          Nat.mul_lt_mul_of_pos_right (Nat.add_lt_add_left hf _) (Nat.two_pow_pos k)
      _ = 2 ^ 23 * 2 ^ (k + 1) := by rw [Nat.pow_succ]; omega

/-- The next fraction is more. -/
theorem magnitude_lt_succ (e f : Nat) : magnitude e f < magnitude e (f + 1) := by
  unfold magnitude
  split
  · exact Nat.lt_succ_self f
  · exact Nat.mul_lt_mul_of_pos_right (Nat.lt_succ_self _) (Nat.two_pow_pos _)

/-- Unsigned patterns are ordered as the numbers they stand for. -/
theorem patternMagnitude_strictMono : StrictMono patternMagnitude := by
  refine strictMono_nat_of_lt_succ fun n => ?_
  have hf : n % 2 ^ 23 < 2 ^ 23 := Nat.mod_lt _ (Nat.two_pow_pos 23)
  rw [patternMagnitude, patternMagnitude]
  by_cases hlast : n % 2 ^ 23 + 1 = 2 ^ 23
  · have hdiv : (n + 1) / 2 ^ 23 = n / 2 ^ 23 + 1 := by omega
    have hmod : (n + 1) % 2 ^ 23 = 0 := by omega
    rw [hdiv, hmod]
    exact magnitude_lt_next hf _
  · have hdiv : (n + 1) / 2 ^ 23 = n / 2 ^ 23 := by omega
    have hmod : (n + 1) % 2 ^ 23 = n % 2 ^ 23 + 1 := by omega
    rw [hdiv, hmod]
    exact magnitude_lt_succ _ _

/-- A pattern is its sign and an unsigned pattern; from 0x7F800000 on that is NaN or an infinity. -/
theorem f32val_cases (w : Word32) :
    ∃ b n : Nat, b < 2 ∧ n < 2 ^ 31 ∧ w.toNat = b * 2 ^ 31 + n ∧
      ((n < 0x7F800000 ∧ f32val w = .finite (signed b (patternMagnitude n))) ∨
        (0x7F800000 ≤ n ∧ (f32val w = .nan ∨ f32val w = .negInf ∨ f32val w = .posInf))) := by
  have hw := w.isLt
  refine ⟨w.toNat / 2 ^ 31, w.toNat % 2 ^ 31, by omega, by omega, by omega, ?_⟩
  have hval := f32val_of_fields (w := w) (b := w.toNat / 2 ^ 31) (e := w.toNat % 2 ^ 31 / 2 ^ 23)
    (f := w.toNat % 2 ^ 31 % 2 ^ 23) (by omega) (by omega) (by omega) (by omega)
  by_cases he : w.toNat % 2 ^ 31 / 2 ^ 23 = 255
  · refine .inr ⟨by omega, ?_⟩
    rw [hval, if_pos he]
    split_ifs
    · exact .inr (.inl rfl)
    · exact .inr (.inr rfl)
    · exact .inl rfl
  · exact .inl ⟨by omega, hval.trans (if_neg he)⟩

/-- Between 0 and a positive finite bound are the patterns up to the bound's, and `-0.0`. -/
theorem inRange_zero_iff {hi : Word32} {m : Nat} (hm : m < 0x7F800000)
    (hhi : f32val hi = .finite (patternMagnitude m)) (v : Word32) :
    inRange 0 v hi = true ↔ v.toNat ≤ m ∨ v = 0x80000000 := by
  have hzero : f32val 0 = .finite 0 := rfl
  have hnegZero : (0x80000000 : Word32).toNat = 2 ^ 31 := rfl
  obtain ⟨b, n, hb, hn, hv, ⟨-, hval⟩ | ⟨hinf, hval⟩⟩ := f32val_cases v
  · have hmono : patternMagnitude n ≤ patternMagnitude m ↔ n ≤ m := patternMagnitude_strictMono.le_iff_le
    have hnonpos : patternMagnitude n ≤ 0 ↔ n ≤ 0 := patternMagnitude_strictMono.le_iff_le (b := 0)
    rw [inRange_iff, hzero, hhi, hval, ← BitVec.toNat_inj, hv, hnegZero]
    simp only [F32.le, decide_eq_true_eq]
    rcases Nat.lt_succ_iff_lt_or_eq.mp hb with h0 | rfl
    · obtain rfl : b = 0 := Nat.lt_one_iff.mp h0
      rw [signed, if_neg Nat.zero_ne_one]
      omega
    · rw [signed, if_pos rfl]
      omega
  · have hout : inRange 0 v hi = false := by
      rcases hval with hval | hval | hval <;> rw [inRange, hzero, hhi, hval] <;> rfl
    rw [hout, ← BitVec.toNat_inj, hv, hnegZero]
    refine iff_of_false Bool.false_ne_true ?_
    omega

/-- Settles O21: `inRange_zero_iff` at the patterns of 1000.0 and 500.0. -/
theorem validPatternsAtTheBuiltInBounds : Obligations.ValidPatternsAtTheBuiltInBounds := by
  intro s x z grip hcfg
  refine ⟨positionViolations s.cfg x z grip, exec_validatePosition x z grip s, ?x, ?z⟩
  case x =>
    rw [x_mem_positionViolations_iff, not_not, hcfg]
    exact inRange_zero_iff (by decide) rfl x
  case z =>
    rw [z_mem_positionViolations_iff, not_not, hcfg]
    exact inRange_zero_iff (by decide) rfl z

end Sys2Proof.Machine
end

section
/-! ## The worked example (41_encoder.md section 3) -/

namespace Sys2Proof.Machine

/-- Settles O17: 150.5 and 300.0 are in range, and the frame is computed. -/
theorem workedExampleOfThePositionCommand : Obligations.WorkedExampleOfThePositionCommand := by
  intro s hcfg
  have hvalid : positionViolations s.cfg 0x43168000 0x43960000 0x01 = [] := by rw [hcfg]; rfl
  rw [exec_encodePosition_of_valid hvalid, exec_encode_of_le (positionPayload_length_le _ _ _)]
  rfl

end Sys2Proof.Machine
end

section
/-! ## Buffers that wait (R145, R147) -/

namespace Sys2Proof.Machine

/-- A FEED without new bytes, in each of the three states. -/
theorem feed_of_bufferQ0 {th : Nat} {b : List Byte} (h : BufferQ0 th b) : feed th b [] = ⟨b, [], [], .idleNoHeader⟩ :=
  feed_idle h.1 h.2

theorem feed_of_bufferQ1 (th : Nat) {b : List Byte} (h : BufferQ1 b) : feed th b [] = ⟨b, [], [], .partialMin⟩ :=
  feed_partialMin (find_eq_zero h.1) h.2

theorem feed_of_bufferQ2 (th : Nat) {b : List Byte} (h : BufferQ2 b) : feed th b [] = ⟨b, [], [], .partialLen⟩ := by
  obtain ⟨hheader, hmin, hlen⟩ := h
  exact feed_partialLen (find_eq_zero hheader) hmin hlen

/-- In each of them it finds nothing to do. -/
theorem feed_of_bufferInv {th : Nat} {b : List Byte} (h : BufferInv th b) :
    ∃ r : StopReason, feed th b [] = ⟨b, [], [], r⟩ := by
  rcases h with h | h | h
  · exact ⟨_, feed_of_bufferQ0 h⟩
  · exact ⟨_, feed_of_bufferQ1 th h⟩
  · exact ⟨_, feed_of_bufferQ2 th h⟩

/-- A buffer in one of the three states is at most 261 bytes, or the threshold. -/
theorem BufferInv.length_le {th : Nat} {b : List Byte} (h : BufferInv th b) : b.length ≤ max th 261 := by
  rcases h with ⟨-, h⟩ | ⟨-, h⟩ | ⟨-, -, h⟩
  · exact le_max_of_le_left h
  · exact le_max_of_le_right (Nat.le_trans (Nat.le_of_lt h) (by decide))
  · exact le_max_of_le_right (Nat.le_of_lt_succ (Nat.lt_of_lt_of_le h (totalLen_le b)))

/-- Without a header it is in Q0. -/
theorem BufferInv.bufferQ0_of_find_none {th : Nat} {b : List Byte} (h : BufferInv th b) (hfind : find b header = none) :
    BufferQ0 th b := by
  rcases h with h | ⟨hheader, -⟩ | ⟨hheader, -⟩
  · exact h
  · exact nomatch hfind.symm.trans (find_eq_zero hheader)
  · exact nomatch hfind.symm.trans (find_eq_zero hheader)

/-- Settles O34: what a FEED leaves is in one of the three states, and so is what the invariant starts from. -/
theorem residualBufferIsBounded : Obligations.ResidualBufferIsBounded := by
  refine ⟨fun i s t hi h => ?left, fun s chunk m cap hs hth hm hcap hroom hlen => ?accepted⟩
  case left =>
    obtain ⟨-, rfl⟩ := eq_commitFeed_of_exec hi h
    have hinv := (feed_stopped s.cfg.garbageThreshold (s.buf ++ chunkOf i)).bufferInv
    exact ⟨hinv.length_le, fun hnone => (hinv.bufferQ0_of_find_none ((find_none_iff _).mpr hnone)).2⟩
  case accepted =>
    have hbuf : s.buf.length ≤ 261 := max_eq_right hth ▸ hs.buffer.length_le
    have ha : s.accepts chunk = true := by
      rw [State.accepts, hm, hcap, Bool.and_eq_true_iff, within_some, within_some]
      exact ⟨hlen, Nat.le_trans (Nat.add_le_add hbuf hlen) hroom⟩
    exact ⟨_, exec_feed_of_accepts ha⟩

/-- Settles O35: a buffer that fits accepts the empty chunk, and the FEED finds nothing to do. -/
theorem emptyFeedChangesNothing : Obligations.EmptyFeedChangesNothing := by
  intro s hs
  have ha : s.accepts [] = true :=
    Bool.and_eq_true_iff.mpr ⟨by cases s.cfg.maxChunk <;> simp, hs.bufferFits⟩
  obtain ⟨r, hr⟩ := feed_of_bufferInv hs.buffer
  refine ⟨r, ?_, fun h => ?q0, fun h => ?q1, fun h => ?q2⟩
  · rw [exec_feed_of_accepts ha, List.append_nil, hr, State.commitFeed_of_wait]
  case q0 => exact congrArg FeedResult.stop (hr.symm.trans (feed_of_bufferQ0 h))
  case q1 => exact congrArg FeedResult.stop (hr.symm.trans (feed_of_bufferQ1 _ h))
  case q2 => exact congrArg FeedResult.stop (hr.symm.trans (feed_of_bufferQ2 _ h))

end Sys2Proof.Machine
end

section
/-! ## A frame in front of the buffer (R136 to R139, R190) -/

namespace Sys2Proof.Machine

/-- The empty buffer waits. -/
theorem feed_nil (th : Nat) : feed th [] [] = ⟨[], [], [], .idleNoHeader⟩ := feed_of_bufferQ0 (bufferQ0_nil th)

/-- The length byte of a frame is where it is whatever follows the frame. -/
theorem totalLen_append {b : List Byte} (h : 4 ≤ b.length) (rest : List Byte) : totalLen (b ++ rest) = totalLen b := by
  rw [totalLen, totalLen, List.getD_append _ _ _ _ h]

/-- Frame-shaped bytes in front are sliced off whole and settled, and the FEED goes on behind them. -/
theorem feed_wireBytes_append (th : Nat) {payload : List Byte} (h : payload.length ≤ maxPayload) (cmd cs f0 f1 : Byte)
    (rest : List Byte) : feed th (wireBytes cmd payload cs f0 f1 ++ rest) [] =
      settle (wireBytes cmd payload cs f0 f1) (feed th rest []) := by
  have hlen := wireBytes_length cmd payload cs f0 f1
  have htotal : totalLen (wireBytes cmd payload cs f0 f1 ++ rest) = (wireBytes cmd payload cs f0 f1).length := by
    rw [totalLen_append (by omega), totalLen_wireBytes h, hlen]
  have hle : totalLen (wireBytes cmd payload cs f0 f1 ++ rest) ≤ (wireBytes cmd payload cs f0 f1 ++ rest).length := by
    rw [htotal, List.length_append]
    exact Nat.le_add_right _ _
  rw [feed_candidate (find_eq_zero rfl) hle, htotal, List.take_left, List.drop_left]

/-- The same with nothing behind them. -/
theorem feed_wireBytes (th : Nat) {payload : List Byte} (h : payload.length ≤ maxPayload) (cmd cs f0 f1 : Byte) :
    feed th (wireBytes cmd payload cs f0 f1) [] =
      settle (wireBytes cmd payload cs f0 f1) ⟨[], [], [], .idleNoHeader⟩ := by
  rw [← feed_nil th, ← feed_wireBytes_append th h, List.append_nil]

/-- An encoded frame in front is emitted, without an event. -/
theorem feed_buildFrame_append (th : Nat) {payload : List Byte} (h : payload.length ≤ maxPayload) (cmd : Byte)
    (rest : List Byte) : feed th (buildFrame cmd payload ++ rest) [] =
      { feed th rest [] with
        frames := ⟨cmd, BitVec.ofNat 8 payload.length, payload⟩ :: (feed th rest []).frames } := by
  rw [buildFrame_eq, feed_wireBytes_append th h, settle_of_good (footerBytes_wireBytes ..), frameOf_wireBytes h]
  · rfl
  · rw [checksumByte_wireBytes, summedRange_wireBytes]

/-- An encoded frame alone. -/
theorem feed_buildFrame (th : Nat) {payload : List Byte} (h : payload.length ≤ maxPayload) (cmd : Byte) :
    feed th (buildFrame cmd payload) [] =
      ⟨[], [⟨cmd, BitVec.ofNat 8 payload.length, payload⟩], [], .idleNoHeader⟩ := by
  rw [← List.append_nil (buildFrame cmd payload), feed_buildFrame_append th h, feed_nil]

/-- The checksum byte of a frame is right when it is, as a number, the sum of command, length and payload modulo 256
(R91). -/
theorem checksumByte_wireBytes_eq_iff (cmd : Byte) (payload : List Byte) (cs f0 f1 : Byte) :
    checksumByte (wireBytes cmd payload cs f0 f1) = sum8 (summedRange (wireBytes cmd payload cs f0 f1)) ↔
      (cmd.toNat + payload.length + (payload.map BitVec.toNat).sum) % 256 = cs.toNat := by
  rw [checksumByte_wireBytes, summedRange_wireBytes, ← BitVec.toNat_inj, toNat_sum8_body, eq_comm]

/-- Settles O30: the two checks, in their order. -/
theorem frameIntoEmptyBufferIsJudged : Obligations.FrameIntoEmptyBufferIsJudged := by
  rintro s cmd payload cs f0 f1 c hbuf hlen rfl ha
  have hexec : exec (.frame cmd payload cs f0 f1) s = .next (s.commitFeed
      (settle (wireBytes cmd payload cs f0 f1) ⟨[], [], [], .idleNoHeader⟩)) := by
    rw [exec_isFeed_of_accepts rfl ha, hbuf, List.nil_append, ← feed_wireBytes s.cfg.garbageThreshold hlen]
    rfl
  have hfooter := footerBytes_wireBytes cmd payload cs f0 f1
  have hchecksum := checksumByte_wireBytes_eq_iff cmd payload cs f0 f1
  rw [hexec]
  refine ⟨fun hf => ?footer, fun hf hsum => ?checksum, fun hf hsum => ?good⟩
  case footer => rw [settle_of_footer_ne (hfooter ▸ hf)]; rfl
  case checksum => rw [settle_of_checksum_ne (hfooter.trans hf) (mt hchecksum.mp hsum)]; rfl
  case good => rw [settle_of_good (hfooter.trans hf) (hchecksum.mpr hsum), frameOf_wireBytes hlen]; rfl

/-- Settles O40: the bytes are the encoded frame. -/
theorem encodeThenFeedRoundTrip : Obligations.EncodeThenFeedRoundTrip := by
  intro s cmd payload hbuf hs hlen
  refine ⟨buildFrame cmd payload, exec_encode_of_le hlen cmd s, ?_⟩
  rw [exec_feed_of_accepts (hs.accepts _), hbuf, List.nil_append, feed_buildFrame _ hlen]

/-- Settles O41: a position frame with the right checksum is the encoded frame of the packed position. -/
theorem positionRoundTripIsExact : Obligations.PositionRoundTripIsExact := by
  rintro s cmd x z grip checksum hbuf hs rfl
  have hlen := positionPayload_length_le x z grip
  have hfeed := exec_feed_of_accepts (hs.accepts (buildFrame cmd (positionPayload x z grip)))
  rw [hbuf, List.nil_append, feed_buildFrame _ hlen] at hfeed
  refine ⟨fun hvalid => ?sent, _, _, hfeed, hfeed, rfl, rfl, rfl, ?unpacked⟩
  case sent => exact (exec_encodePosition_of_valid hvalid cmd).trans (exec_encode_of_le hlen cmd s)
  case unpacked =>
    rw [exec_unpackPosition, unpack_of_positionPayload rfl rfl]
    rfl

end Sys2Proof.Machine
end

section
/-! ## What the checksum detects (40_checksum.md section 2) -/

namespace Sys2Proof.Machine

/-- A flipped bit makes another byte. -/
theorem flip_ne {k : Nat} (h : k < 8) (b : Byte) : (b ^^^ (1#8 <<< k)).toNat ≠ b.toNat := by
  have hbit : 1#8 <<< k ≠ 0 := by interval_cases k <;> decide
  exact fun heq => hbit (xor_left_eq_self_iff.mp (BitVec.toNat_inj.mp heq))

/-- Replacing a byte changes the sum by the difference of the two. -/
theorem sum_set_toNat {l : List Byte} {n : Nat} (h : n < l.length) (b : Byte) :
    ((l.set n b).map BitVec.toNat).sum + l[n].toNat = (l.map BitVec.toNat).sum + b.toNat := by
  induction l generalizing n with
  | nil => cases h
  | cons a as ih =>
    cases n with
    | zero => simp only [List.set_cons_zero, List.map_cons, List.sum_cons, List.getElem_cons_zero]; omega
    | succ n =>
      have := ih (Nat.lt_of_succ_lt_succ h)
      simp only [List.set_cons_succ, List.map_cons, List.sum_cons, List.getElem_cons_succ]
      omega

/-- Settles O43: the changed byte differs by less than 256 and not by 0, so the sums differ modulo 256. -/
theorem singleBitFlipsAreDetected : Obligations.SingleBitFlipsAreDetected := by
  intro s cmd payload cs k hbuf hs hlen hk hcs cmd' payload' cs' hflip
  have hbad : payload'.length = payload.length ∧
      (cmd'.toNat + payload'.length + (payload'.map BitVec.toNat).sum) % 256 ≠ cs'.toNat := by
    obtain ⟨rfl, rfl, rfl⟩ | ⟨n, hn, rfl, rfl, rfl⟩ | ⟨rfl, rfl, rfl⟩ := hflip
    · have hne := flip_ne hk cmd
      have := cmd.isLt
      have := (cmd ^^^ (1#8 <<< k)).isLt
      exact ⟨rfl, by omega⟩
    · have hne := flip_ne hk payload[n]
      have := payload[n].isLt
      have := (payload[n] ^^^ (1#8 <<< k)).isLt
      have := sum_set_toNat hn (payload[n] ^^^ (1#8 <<< k))
      rw [List.length_set]
      exact ⟨rfl, by omega⟩
    · have hne := flip_ne hk cs
      exact ⟨rfl, by omega⟩
  obtain ⟨hlen', hsum⟩ := hbad
  have hjudged := frameIntoEmptyBufferIsJudged s cmd' payload' cs' 0x58 0x44 _ hbuf (hlen' ▸ hlen) rfl (hs.accepts _)
  rw [hjudged.2.1 rfl hsum, State.commitFeed_of_no_frames, hbuf]

/-- Settles O44: the checksum is the sum of the other payload just as well. -/
theorem equalSumsAreNotDetected : Obligations.EqualSumsAreNotDetected := by
  intro s cmd payload payload' cs hbuf hs hlen hlen' hsum hcs
  have hright : (cmd.toNat + payload'.length + (payload'.map BitVec.toNat).sum) % 256 = cs.toNat := by omega
  have hjudged := frameIntoEmptyBufferIsJudged s cmd payload' cs 0x58 0x44 _ hbuf (hlen' ▸ hlen) rfl (hs.accepts _)
  rw [← hlen', hjudged.2.2 rfl hright]

end Sys2Proof.Machine
end

section
/-! ## Every byte accounted for (43_decoder.md sections 2 and 3) -/

namespace Sys2Proof.Machine

/-- What is asked of a piece: an accepted one is a valid frame, a discarded candidate has a frame's shape and is not
valid, discarded garbage is not empty and holds no header. -/
def Piece.Sound : Piece → Prop
  | .accepted c => validFrame c = true
  | .discarded d =>
    (d.kind = .corruptFooter ∨ d.kind = .corruptChecksum → isCandidate d.bytes = true ∧ validFrame d.bytes = false) ∧
      (d.kind = .garbageTrim ∨ d.kind = .garbageFlush → d.bytes ≠ [] ∧ ∀ j, ¬ HeaderAt d.bytes j)

/-- The result of a FEED on a buffer, told by pieces. -/
structure Accounts (ps : List Piece) (b : List Byte) (r : FeedResult) : Prop where
  bytes : (ps.map Piece.bytes).flatten ++ r.buf = b
  diags : r.diags = ps.filterMap Piece.diag?
  frames : r.frames = ps.filterMap Piece.frame?
  sound : ∀ p ∈ ps, p.Sound

/-- Nothing was disposed of. -/
theorem accounts_nil (b : List Byte) (stop : StopReason) : Accounts [] b ⟨b, [], [], stop⟩ :=
  ⟨rfl, rfl, rfl, List.forall_mem_nil _⟩

/-- A piece discarded in front of the rest. -/
theorem Accounts.discard {ps : List Piece} {b rest : List Byte} {r : FeedResult} (h : Accounts ps rest r) {d : Diag}
    (hb : d.bytes ++ rest = b) (hd : (Piece.discarded d).Sound) :
    Accounts (.discarded d :: ps) b { r with diags := [d] ++ r.diags } where
  bytes := by rw [← hb, ← h.bytes, ← List.append_assoc]; rfl
  diags := congrArg (d :: ·) h.diags
  frames := h.frames
  sound := List.forall_mem_cons.mpr ⟨hd, h.sound⟩

/-- A piece accepted in front of the rest. -/
theorem Accounts.accept {ps : List Piece} {b rest : List Byte} {r : FeedResult} (h : Accounts ps rest r)
    {c : List Byte} (hb : c ++ rest = b) (hc : validFrame c = true) :
    Accounts (.accepted c :: ps) b { r with frames := [frameOf c] ++ r.frames } where
  bytes := by rw [← hb, ← h.bytes, ← List.append_assoc]; rfl
  diags := h.diags
  frames := congrArg (frameOf c :: ·) h.frames
  sound := List.forall_mem_cons.mpr ⟨hc, h.sound⟩

/-- Discarded garbage. -/
theorem sound_garbage {d : Diag} (hk : d.kind = .garbageTrim ∨ d.kind = .garbageFlush) (hne : d.bytes ≠ [])
    (hnone : ∀ j, ¬ HeaderAt d.bytes j) : (Piece.discarded d).Sound := by
  refine ⟨fun hc => ?_, fun _ => ⟨hne, hnone⟩⟩
  rcases hk with hk | hk <;> rw [hk] at hc <;> exact nomatch hc

/-- A discarded candidate. -/
theorem sound_corrupt {d : Diag} (hk : d.kind = .corruptFooter ∨ d.kind = .corruptChecksum)
    (hc : isCandidate d.bytes = true) (hv : ¬ validFrame d.bytes = true) : (Piece.discarded d).Sound := by
  refine ⟨fun _ => ⟨hc, Bool.eq_false_iff.mpr hv⟩, fun hg => ?_⟩
  rcases hk with hk | hk <;> rw [hk] at hg <;> exact nomatch hg

/-- Of a string of a frame's shape, the two checks of the decoder are what is left of R62. -/
theorem validFrame_iff_of_isCandidate {c : List Byte} (h : isCandidate c = true) :
    validFrame c = true ↔ footerBytes c = footer ∧ checksumByte c = sum8 (summedRange c) := by
  simp only [isCandidate, Bool.and_eq_true, decide_eq_true_eq, beq_iff_eq] at h
  obtain ⟨⟨hmin, hheader⟩, hlen⟩ := h
  rw [validFrame_iff]
  exact ⟨fun ⟨_, _, _, hf, hc⟩ => ⟨hf, hc⟩, fun ⟨hf, hc⟩ => ⟨hmin, hlen, hheader, hf, hc⟩⟩

/-- A settled candidate is one piece in front of the rest. -/
theorem Accounts.settle {ps : List Piece} {b rest : List Byte} {r : FeedResult} (h : Accounts ps rest r)
    {c : List Byte} (hb : c ++ rest = b) (hc : isCandidate c = true) : ∃ qs, Accounts qs b (settle c r) := by
  have hvalid := validFrame_iff_of_isCandidate hc
  by_cases hf : footerBytes c = footer
  case neg =>
    rw [settle_of_footer_ne hf]
    exact ⟨_, h.discard hb (sound_corrupt (.inl rfl) hc fun hv => hf (hvalid.mp hv).1)⟩
  by_cases hs : checksumByte c = sum8 (summedRange c)
  case neg =>
    rw [settle_of_checksum_ne hf hs]
    exact ⟨_, h.discard hb (sound_corrupt (.inr rfl) hc fun hv => hs (hvalid.mp hv).2)⟩
  case pos =>
    rw [settle_of_good hf hs]
    exact ⟨_, h.accept hb (hvalid.mpr ⟨hf, hs⟩)⟩

/-- Both bytes of a header are in the buffer. -/
theorem HeaderAt.lt_length {b : List Byte} {j : Nat} (h : HeaderAt b j) : j + 1 < b.length :=
  (List.getElem?_eq_some_iff.mp h.2).1

/-- What follows makes no difference to the headers in front of it. -/
theorem headerAt_append_iff {b : List Byte} {j : Nat} (h : j + 1 < b.length) (rest : List Byte) :
    HeaderAt (b ++ rest) j ↔ HeaderAt b j := by
  rw [HeaderAt, List.getElem?_append_left (Nat.lt_of_succ_lt h), List.getElem?_append_left h, HeaderAt]

theorem HeaderAt.append {b : List Byte} {j : Nat} (h : HeaderAt b j) (rest : List Byte) : HeaderAt (b ++ rest) j :=
  (headerAt_append_iff h.lt_length rest).mpr h

/-- No header stands in what is in front of the first one. -/
theorem not_headerAt_take {b : List Byte} {i : Nat} (h : find b header = some i) (j : Nat) :
    ¬ HeaderAt (b.take i) j := by
  intro hj
  have hlt : j < i := Nat.lt_of_lt_of_le (Nat.lt_of_succ_lt hj.lt_length) (List.length_take_le i b)
  exact ((find_some_iff b i).mp h).2 j hlt (List.take_append_drop i b ▸ hj.append (b.drop i))

/-- Every FEED is told by pieces. -/
theorem exists_accounts (th : Nat) (b : List Byte) : ∃ ps, Accounts ps b (feed th b []) := by
  refine feed_induction (P := fun b r => ∃ ps, Accounts ps b r) ?noHeader ?trim ?partialMin ?partialLen ?candidate b
  case noHeader =>
    intro b hfind
    rcases Nat.lt_or_ge th b.length with hlt | hle
    · rw [noHeader, if_pos hlt]
      exact ⟨_, (accounts_nil [] .flushed).discard (List.append_nil b) (sound_garbage (.inr rfl)
        (List.ne_nil_of_length_pos (Nat.zero_lt_of_lt hlt)) ((find_none_iff b).mp hfind))⟩
    · rw [noHeader, if_neg (Nat.not_lt.mpr hle)]
      exact ⟨[], accounts_nil b _⟩
  case trim =>
    rintro b i r hfind hpos ⟨ps, h⟩
    have hne : b.take i ≠ [] := by
      intro hnil
      rcases List.take_eq_nil_iff.mp hnil with rfl | rfl
      · exact Nat.lt_irrefl 0 hpos
      · cases hfind
    exact ⟨_, h.discard (List.take_append_drop i b) (sound_garbage (.inl rfl) hne (not_headerAt_take hfind))⟩
  case partialMin => exact fun b _ _ => ⟨[], accounts_nil b _⟩
  case partialLen => exact fun b _ _ _ => ⟨[], accounts_nil b _⟩
  case candidate =>
    rintro b r hfind hlen ⟨ps, h⟩
    exact h.settle (List.take_append_drop _ b) (isCandidate_take_totalLen hfind hlen)

/-- Settles O36: by `exists_accounts`. -/
theorem everyByteIsAccountedFor : Obligations.EveryByteIsAccountedFor := by
  intro i s t hi h
  obtain ⟨-, rfl⟩ := eq_commitFeed_of_exec hi h
  obtain ⟨ps, haccounts⟩ := exists_accounts s.cfg.garbageThreshold (s.buf ++ chunkOf i)
  refine ⟨ps, haccounts.bytes, congrArg _ haccounts.diags, congrArg _ haccounts.frames, congrArg _ haccounts.frames,
    fun c hc => haccounts.sound _ hc, fun d hd => (haccounts.sound _ hd).1, fun d hd => (haccounts.sound _ hd).2⟩

end Sys2Proof.Machine
end

section
/-! ## The header search across a cut (R132, R148) -/

namespace Sys2Proof.Machine

/-- A header stays the first one whatever follows. -/
theorem find_append_of_some {b : List Byte} {i : Nat} (h : find b header = some i) (rest : List Byte) :
    find (b ++ rest) header = some i := by
  obtain ⟨hi, hleast⟩ := (find_some_iff b i).mp h
  refine (find_some_iff _ i).mpr ⟨hi.append rest, fun j hj hhead => hleast j hj ?_⟩
  exact (headerAt_append_iff (Nat.lt_trans (Nat.succ_lt_succ hj) hi.lt_length) rest).mp hhead

/-- Where no header crosses the cut, the search goes on behind bytes that hold none. -/
theorem find_append_of_none {b rest : List Byte} (h : find b header = none)
    (hcut : ¬ (b.getLast? = some 0x44 ∧ rest.head? = some 0x58)) :
    find (b ++ rest) header = (find rest header).map (· + b.length) := by
  induction b with
  | nil => exact Option.map_id_apply.symm
  | cons a t ih =>
    rw [find_cons] at h
    split at h
    · cases h
    · rename_i hfront
      have hfront' : ¬ (a :: (t ++ rest)).take header.length = header := by
        cases t with
        | cons c t => exact hfront
        | nil =>
          cases rest with
          | nil => exact hfront
          | cons c rest =>
            intro heq
            obtain ⟨rfl, rfl⟩ : a = 0x44 ∧ c = 0x58 := by simpa [header] using heq
            exact hcut ⟨rfl, rfl⟩
      have hcut' : ¬ (t.getLast? = some 0x44 ∧ rest.head? = some 0x58) := by
        cases t with
        | nil => exact fun hboth => nomatch hboth.1
        | cons c t => rwa [List.getLast?_cons_cons] at hcut
      rw [List.cons_append, find_cons, if_neg hfront', ih (Option.map_eq_none_iff.mp h) hcut', Option.map_map]
      rfl

/-- Garbage in front of an encoded frame is trimmed, and the frame is emitted. -/
theorem feed_garbage_buildFrame (th : Nat) {g : List Byte} (hg : find g header = none) {payload : List Byte}
    (h : payload.length ≤ maxPayload) (cmd : Byte) :
    feed th (g ++ buildFrame cmd payload) [] =
      ⟨[], [⟨cmd, BitVec.ofNat 8 payload.length, payload⟩], if g = [] then [] else [⟨.garbageTrim, g⟩],
        .idleNoHeader⟩ := by
  have hhead : (buildFrame cmd payload).head? = some 0x44 := rfl
  have hfind : find (g ++ buildFrame cmd payload) header = some g.length := by
    rw [find_append_of_none hg (fun hcut => absurd (hhead.symm.trans hcut.2) (by decide)), find_eq_zero rfl,
      Option.map_some, Nat.zero_add]
  rw [feed_trim hfind, List.drop_left, feed_buildFrame th h, trimEvents_eq, List.take_left, List.append_nil]
  simp only [List.length_eq_zero_iff]

/-- Settles O42: by `feed_garbage_buildFrame`. -/
theorem resynchronizesAfterGarbage : Obligations.ResynchronizesAfterGarbage := by
  intro s g cmd payload hs hlen hnone
  rw [exec_feed_of_accepts (hs.accepts _), ← List.append_assoc,
    feed_garbage_buildFrame _ ((find_none_iff _).mpr hnone) hlen]

/-- Zeros and a first header byte hold no header. -/
theorem find_zeros_half_header (n : Nat) :
    find (List.replicate n (0x00 : Byte)) header = none ∧
      find (List.replicate n (0x00 : Byte) ++ [0x44]) header = none := by
  have hzeros : find (List.replicate n (0x00 : Byte)) header = none := by
    refine (find_none_iff _).mpr fun j hj => ?_
    obtain ⟨hlt, hzero⟩ := List.getElem?_eq_some_iff.mp hj.1
    rw [List.getElem_replicate] at hzero
    exact absurd hzero (by decide)
  refine ⟨hzeros, ?_⟩
  rw [find_append_of_none hzeros (fun hcut => absurd hcut.2 (by decide))]
  rfl

/-- A FEED in an unbounded block. -/
theorem State.Unbounded.exec_feed {s : State} (h : s.Unbounded) (chunk : List Byte) :
    exec (.feed chunk) s = .next (s.commitFeed (feed s.cfg.garbageThreshold (s.buf ++ chunk) [])) :=
  exec_feed_of_accepts (h.accepts chunk)

/-- It stays unbounded. -/
theorem State.Unbounded.commitFeed {s : State} (h : s.Unbounded) (r : FeedResult) : (s.commitFeed r).Unbounded := h

/-- Settles O38: the flush takes the first header byte with it, and without it no header is left. -/
theorem flushAcrossAHeaderLosesTheFrame : Obligations.FlushAcrossAHeaderLosesTheFrame := by
  rintro s cmd payload f g hbuf hs hlen rfl hnone rfl
  obtain ⟨hzeros, hhalf⟩ := find_zeros_half_header s.cfg.garbageThreshold
  have hover : s.cfg.garbageThreshold < (List.replicate s.cfg.garbageThreshold (0x00 : Byte) ++ [0x44]).length := by
    rw [List.length_append, List.length_replicate]
    exact Nat.lt_succ_self _
  have hflush := hs.exec_feed (List.replicate s.cfg.garbageThreshold 0x00 ++ [0x44])
  rw [hbuf, List.nil_append, feed_flush hhalf hover] at hflush
  have hrest ds := (hs.commitFeed ⟨[], [], ds, .flushed⟩).exec_feed ((buildFrame cmd payload).drop 1)
  have hwhole := hs.exec_feed (List.replicate s.cfg.garbageThreshold 0x00 ++ buildFrame cmd payload)
  rw [hbuf, List.nil_append, feed_garbage_buildFrame _ hzeros hlen] at hwhole
  refine ⟨_, _, (execAll_cons_of_next hflush _).trans (execAll_cons_of_next (hrest _) _), hwhole, ?lost, rfl⟩
  case lost =>
    rw [State.commitFeed_out, State.commitFeed_buf, List.nil_append, feed_noHeader ((find_none_iff _).mpr hnone),
      noHeader_frames, List.append_nil]
    exact List.append_nil _

end Sys2Proof.Machine
end

section
/-! ## Chunks of one stream (R148) -/

namespace Sys2Proof.Machine

/-- What settling a candidate puts in front depends on the candidate alone, and is never a flush. -/
theorem exists_settle_eq (c : List Byte) :
    ∃ (fs : List Frame) (ds : List Diag), (∀ d ∈ ds, d.kind ≠ .garbageFlush) ∧
      ∀ r : FeedResult, settle c r = { r with frames := fs ++ r.frames, diags := ds ++ r.diags } := by
  by_cases hf : footerBytes c = footer
  case neg => exact ⟨[], [⟨.corruptFooter, c⟩], List.forall_mem_singleton.mpr nofun, settle_of_footer_ne hf⟩
  by_cases hs : checksumByte c = sum8 (summedRange c)
  case neg => exact ⟨[], [⟨.corruptChecksum, c⟩], List.forall_mem_singleton.mpr nofun, settle_of_checksum_ne hf hs⟩
  case pos => exact ⟨[frameOf c], [], List.forall_mem_nil _, settle_of_good hf hs⟩

/-- Events that are no flush do not make a FEED lossy. -/
theorem lossyFeed_append {ds : List Diag} (h : ∀ d ∈ ds, d.kind ≠ .garbageFlush) (fs : List Frame) (r : FeedResult)
    (later : List Byte) : lossyFeed { r with frames := fs, diags := ds ++ r.diags } later = lossyFeed r later := by
  have hnone : (ds.any fun d => d.kind == .garbageFlush && d.bytes.getLast? == some 0x44 && later.head? == some 0x58) =
      false := by
    rw [List.any_eq_false]
    intro d hd
    rw [beq_false_of_ne (h d hd), Bool.false_and, Bool.false_and]
    exact Bool.false_ne_true
  rw [lossyFeed, List.any_append, hnone, Bool.false_or, lossyFeed]

/-- Trimmed bytes give no frame. -/
theorem feed_frames_drop {th : Nat} {b : List Byte} {i : Nat} (h : find b header = some i) :
    (feed th b []).frames = (feed th (b.drop i) []).frames := by
  rw [feed_trim h]

/-- Bytes without a header give no frame, and take none from what follows, where no header crosses the cut. -/
theorem feed_frames_of_noHeader_append {th : Nat} {b rest : List Byte} (h : find b header = none)
    (hcut : ¬ (b.getLast? = some 0x44 ∧ rest.head? = some 0x58)) :
    (feed th (b ++ rest) []).frames = (feed th rest []).frames := by
  have hfind := find_append_of_none h hcut
  cases hrest : find rest header with
  | none =>
    rw [hrest] at hfind
    rw [feed_noHeader hfind, feed_noHeader hrest, noHeader_frames, noHeader_frames]
  | some i =>
    rw [hrest] at hfind
    have hfind' : find (b ++ rest) header = some (b.length + i) := hfind.trans (congrArg some (Nat.add_comm i _))
    rw [feed_frames_drop hfind', feed_frames_drop hrest, List.drop_length_add_append]

/-- Unless the FEED of what is there is lossy, the frames of a stream are those of what is there, and then those of what
is left of it with the rest. -/
theorem feed_frames_append (th : Nat) (rest b : List Byte) (h : lossyFeed (feed th b []) rest = false) :
    (feed th (b ++ rest) []).frames =
      (feed th b []).frames ++ (feed th ((feed th b []).buf ++ rest) []).frames := by
  revert h
  refine feed_induction (P := fun b r => lossyFeed r rest = false →
    (feed th (b ++ rest) []).frames = r.frames ++ (feed th (r.buf ++ rest) []).frames)
    ?noHeader ?trim ?partialMin ?partialLen ?candidate b
  case noHeader =>
    intro b hfind
    rcases Nat.lt_or_ge th b.length with hlt | hle
    · rw [noHeader, if_pos hlt]
      intro hlossy
      refine feed_frames_of_noHeader_append hfind fun ⟨hlast, hhead⟩ => ?_
      simp [lossyFeed, hlast, hhead] at hlossy
    · rw [noHeader, if_neg (Nat.not_lt.mpr hle)]
      exact fun _ => rfl
  case trim =>
    intro b i r hfind _ ih hlossy
    have hle : i ≤ b.length := Nat.le_of_lt (Nat.lt_of_succ_lt ((find_some_iff b i).mp hfind).1.lt_length)
    rw [feed_frames_drop (find_append_of_some hfind rest), List.drop_append_of_le_length hle]
    have hkind : ∀ d ∈ [⟨.garbageTrim, b.take i⟩], Diag.kind d ≠ .garbageFlush := List.forall_mem_singleton.mpr nofun
    exact ih ((lossyFeed_append hkind r.frames r rest).symm.trans hlossy)
  case partialMin => exact fun b _ _ _ => rfl
  case partialLen => exact fun b _ _ _ _ => rfl
  case candidate =>
    intro b r hfind hlen ih
    have hmin := minFrame_le_totalLen b
    have htotal := totalLen_append (by omega : 4 ≤ b.length) rest
    have hlen' : totalLen (b ++ rest) ≤ (b ++ rest).length := by rw [htotal, List.length_append]; omega
    obtain ⟨fs, ds, hkind, hsettle⟩ := exists_settle_eq (b.take (totalLen b))
    rw [feed_candidate (find_append_of_some hfind rest) hlen', htotal, List.take_append_of_le_length hlen,
      List.drop_append_of_le_length hlen, hsettle, hsettle, lossyFeed_append hkind]
    intro hlossy
    rw [ih hlossy, List.append_assoc]

/-- FEEDs of chunks, without a lossy flush, emit the frames of the whole stream. -/
theorem execAll_feed_frames (cs : List (List Byte)) {s : State} (hs : s.Unbounded)
    (hbuf : BufferInv s.cfg.garbageThreshold s.buf) (hlossy : lossyRun s.cfg.garbageThreshold s.buf cs = false) :
    ∃ t : State, execAll (cs.map .feed) s = .next t ∧
      t.out.frames = s.out.frames ++ (feed s.cfg.garbageThreshold (s.buf ++ cs.flatten) []).frames := by
  induction cs generalizing s with
  | nil =>
    obtain ⟨r, hr⟩ := feed_of_bufferInv hbuf
    refine ⟨s, rfl, ?_⟩
    rw [List.flatten_nil, List.append_nil, hr, List.append_nil]
  | cons c cs ih =>
    rw [lossyRun, feed_append, Bool.or_eq_false_iff] at hlossy
    obtain ⟨hfeed, hrun⟩ := hlossy
    obtain ⟨t, hrest, hframes⟩ := ih (hs.commitFeed _) (feed_stopped _ _).bufferInv hrun
    refine ⟨t, (execAll_cons_of_next (hs.exec_feed c) _).trans hrest, ?_⟩
    rw [hframes, List.flatten_cons, ← List.append_assoc s.buf, feed_frames_append _ _ _ hfeed, ← List.append_assoc]
    rfl

/-- Settles O37: both runs emit the frames of the one stream. -/
theorem chunkingIsInvisibleWithoutLossyFlush : Obligations.ChunkingIsInvisibleWithoutLossyFlush := by
  intro s cs ds hbuf hs hflatten hcs hds
  have hinv : BufferInv s.cfg.garbageThreshold s.buf := hbuf ▸ .inl (bufferQ0_nil _)
  rw [← hbuf] at hcs hds
  obtain ⟨t, ht, hframes⟩ := execAll_feed_frames cs hs hinv hcs
  obtain ⟨u, hu, hframes'⟩ := execAll_feed_frames ds hs hinv hds
  exact ⟨t, u, ht, hu, by rw [hframes, hframes', hflatten]⟩

end Sys2Proof.Machine
end

section
/-! ## Streams of encoded frames (R151) -/

namespace Sys2Proof.Machine

/-- The bytes of a list of messages, each its command and payload, frame after frame. -/
def stream (ms : List (Byte × List Byte)) : List Byte := (ms.map fun m => buildFrame m.1 m.2).flatten

/-- Their Frame objects. -/
def framesOf (ms : List (Byte × List Byte)) : List Frame := ms.map fun m => ⟨m.1, BitVec.ofNat 8 m.2.length, m.2⟩

theorem stream_cons (m : Byte × List Byte) (ms : List (Byte × List Byte)) :
    stream (m :: ms) = buildFrame m.1 m.2 ++ stream ms := rfl

/-- No frame is empty. -/
theorem eq_nil_of_stream_eq_nil {ms : List (Byte × List Byte)} (h : stream ms = []) : ms = [] := by
  cases ms with
  | nil => rfl
  | cons m ms => exact nomatch (List.append_eq_nil_iff.mp h).1

/-- The beginning of an encoded frame waits for the rest of it; its first byte alone, at a threshold of at least 1. -/
theorem bufferInv_take_buildFrame {th n : Nat} (hth : 1 ≤ th) {payload : List Byte} (h : payload.length ≤ maxPayload)
    (cmd : Byte) (hn : n < (buildFrame cmd payload).length) : BufferInv th ((buildFrame cmd payload).take n) := by
  have hlen : ((buildFrame cmd payload).take n).length = n := List.length_take_of_le (Nat.le_of_lt hn)
  match n with
  | 0 => exact .inl (bufferQ0_nil th)
  | 1 => exact .inl ⟨rfl, hth⟩
  | n + 2 =>
    have hheader : ((buildFrame cmd payload).take (n + 2)).take 2 = header := rfl
    rcases Nat.lt_or_ge (n + 2) 7 with hlt | hge
    · exact .inr (.inl ⟨hheader, hlen.trans_lt hlt⟩)
    · have htotal : minFrame + (((buildFrame cmd payload).take (n + 2)).getD 3 0).toNat =
          (buildFrame cmd payload).length := by
        rw [List.getD_eq_getElem?_getD, List.getElem?_take_of_lt (by omega), buildFrame_length]
        exact congrArg (7 + ·) (toNat_ofNat_length h)
      exact .inr (.inr ⟨hheader, hge.trans_eq hlen.symm, by rw [hlen, htotal]; exact hn⟩)

/-- Of two ways to cut one list, the longer first part is the shorter one and more. -/
theorem exists_append_of_length_le {b later f rest : List Byte} (h : b ++ later = f ++ rest)
    (hle : f.length ≤ b.length) : ∃ b', b = f ++ b' ∧ b' ++ later = rest := by
  obtain ⟨c, rfl, rfl⟩ | ⟨c, rfl, rfl⟩ := List.append_eq_append_iff.mp h
  · have hc : c = [] := List.eq_nil_of_length_eq_zero (by rw [List.length_append] at hle; omega)
    subst hc
    exact ⟨[], by rw [List.append_nil, List.append_nil], rfl⟩
  · exact ⟨c, rfl, rfl⟩

/-- A FEED with the first part of a stream in the buffer emits the frames that are there, reports nothing, and leaves
what the rest of the stream completes. -/
theorem feed_stream {th : Nat} (hth : 1 ≤ th) {ms : List (Byte × List Byte)} (hms : ∀ m ∈ ms, m.2.length ≤ maxPayload)
    {b later : List Byte} (h : b ++ later = stream ms) :
    ∃ ms₁ ms₂ b' r, ms = ms₁ ++ ms₂ ∧ feed th b [] = ⟨b', framesOf ms₁, [], r⟩ ∧ b' ++ later = stream ms₂ ∧
      (later = [] → ms₂ = []) := by
  induction ms generalizing b with
  | nil =>
    obtain ⟨rfl, rfl⟩ := List.append_eq_nil_iff.mp h
    exact ⟨[], [], [], _, rfl, feed_nil th, rfl, fun _ => rfl⟩
  | cons m ms ih =>
    obtain ⟨hm, hms⟩ := List.forall_mem_cons.mp hms
    rw [stream_cons] at h
    rcases Nat.lt_or_ge b.length (buildFrame m.1 m.2).length with hlt | hge
    · have hb : b = (buildFrame m.1 m.2).take b.length := by
        rw [← List.take_append_of_le_length (Nat.le_of_lt hlt), ← h, List.take_left]
      have hinv : BufferInv th b := by rw [hb]; exact bufferInv_take_buildFrame hth hm m.1 hlt
      obtain ⟨r, hr⟩ := feed_of_bufferInv hinv
      refine ⟨[], m :: ms, b, r, rfl, hr, h, ?_⟩
      rintro rfl
      rw [← List.append_nil b, h, List.length_append] at hlt
      omega
    · obtain ⟨b', rfl, h'⟩ := exists_append_of_length_le h hge
      obtain ⟨ms₁, ms₂, b'', r, rfl, hr, hrest, hlast⟩ := ih hms h'
      exact ⟨m :: ms₁, ms₂, b'', r, rfl, by rw [feed_buildFrame_append th hm, hr]; rfl, hrest, hlast⟩

/-- FEEDs of the chunks of a stream, from a buffer with its first part, emit its frames and report nothing. -/
theorem execAll_feed_stream (cs : List (List Byte)) {s : State} (hs : s.Unbounded) (hth : 1 ≤ s.cfg.garbageThreshold)
    {ms : List (Byte × List Byte)} (hms : ∀ m ∈ ms, m.2.length ≤ maxPayload) (h : s.buf ++ cs.flatten = stream ms)
    (hlast : cs.flatten = [] → ms = []) :
    ∃ rs : List StopReason, execAll (cs.map .feed) s = .next { s.emit (framesOf ms) with
      buf := [], out := { (s.emit (framesOf ms)).out with status := s.out.status ++ rs } } := by
  induction cs generalizing s ms with
  | nil =>
    obtain rfl := hlast rfl
    have hbuf : s.buf = [] := (List.append_nil s.buf).symm.trans h
    refine ⟨[], ?_⟩
    simp only [framesOf, List.map_nil, State.emit_nil, List.append_nil, ← hbuf, execAll]
  | cons c cs ih =>
    rw [List.flatten_cons, ← List.append_assoc] at h
    obtain ⟨ms₁, ms₂, b', r, rfl, hfeed, hrest, hlast'⟩ := feed_stream hth hms h
    obtain ⟨-, hms₂⟩ := List.forall_mem_append.mp hms
    obtain ⟨rs, hrs⟩ := ih (hs.commitFeed ⟨b', framesOf ms₁, [], r⟩) hth hms₂ hrest hlast'
    refine ⟨r :: rs, ?_⟩
    rw [List.map_cons, execAll_cons_of_next (hs.exec_feed c), hfeed, hrs]
    simp only [State.emit, State.commitFeed, framesOf, List.map_append, List.append_assoc, List.append_nil,
      List.singleton_append]

/-- Settles O39: by `execAll_feed_stream`, from an empty buffer. -/
theorem backToBackFramesSurviveEveryChunking : Obligations.BackToBackFramesSurviveEveryChunking := by
  rintro s ms cs fs hbuf hs hth hms hflatten rfl
  have hstream : s.buf ++ cs.flatten = stream ms := by rw [hbuf]; exact hflatten
  have hlast : cs.flatten = [] → ms = [] := fun hnil => eq_nil_of_stream_eq_nil (hflatten.symm.trans hnil)
  obtain ⟨rs, hrs⟩ := execAll_feed_stream cs hs hth hms hstream hlast
  refine ⟨_, rs, hrs, ?_⟩
  simp only [State.emit, hbuf, framesOf]

end Sys2Proof.Machine
end
